-- ==== Sys2Proof/Word.lean ====
section
/-! DEFINITION. The widths of the block's values (spec/00_scope.md R6, R9; spec/30_encoding.md R82, R83). -/

namespace Sys2Proof

/-- One byte of the environment's memory (R56). -/
abbrev Byte := BitVec 8

/-- A sample or the result: 16 bits, Q1.15 (R6, R160). -/
abbrev Sample := BitVec 16

/-- An accumulator, quotient, length or index pattern: 32 bits (R6). -/
abbrev Word := BitVec 32

/-- A micro-operation word of format U: 4 bits, all opcode (R82). -/
abbrev Uop := BitVec 4

/-- A host command word of format H: bit 32 is `start`, bits 31:0 are `len` (R83). -/
abbrev Command := BitVec 33

end Sys2Proof
end

