-- ==== Sys2Proof/Syntax.lean ====
section
/-! DEFINITION. The instructions: the nine micro-operations and the host command START
(spec/30_encoding.md R84; spec/40_invocation.md R101), and the two kinds of word that carry them (R82, R83). -/

namespace Sys2Proof

/-- One constructor per row of spec/opcode_table.json. Every operand of a micro-operation is implicit (R82, R84);
START carries the 32-bit length of the `len` port (R83, R101). -/
inductive Instr where
  | nop
  | clr
  | acc1
  | acc4
  | acc8
  | vred
  | div
  | fmt
  | wr
  | start (len : Word)
  deriving DecidableEq, Repr

/-- A word of one of the two formats: U, what the sequencer produces (R82), or H, what the host drives (R83). -/
inductive CodeWord where
  | uop (w : Uop)
  | command (w : Command)
  deriving DecidableEq, Repr

end Sys2Proof
end

