-- ==== Sys2Proof/Config.lean ====
section
/-! DEFINITION. What is fixed when an instance is built (spec/00_scope.md R7), what the environment fixes
(spec/20_memory.md R56, R59), and the free values of the spec's open points. The values themselves are
carried in State, so that a statement about every state is one about every build (log 3, log 4). -/

namespace Sys2Proof.Config

/-- STRAT: which adder shape the sequencer drives (R7). -/
inductive Strategy where
  | scalar
  | unroll
  | vector
  deriving DecidableEq, Repr

/-- G: the group size of the packed tree step, 4 or 8; read only when STRAT = UNROLL (R7). -/
inductive Group where
  | four
  | eight
  deriving DecidableEq, Repr

/-- The number of samples of one group (R7). -/
def Group.size : Group → Nat
  | .four => 4
  | .eight => 8

/-- VLMAX: any integer of at least 1; read only when STRAT = VECTOR (R7, D4). -/
abbrev VectorWidth := { n : Nat // 1 ≤ n }

/-- OVERFLOW_POLICY: what the accumulator holds after a step whose exact result leaves the 32-bit range
(spec/92_eei_decisions.md D7; spec/93_implementation_defined.md U3). `wrap` is the spec's decision and default. -/
inductive OverflowPolicy where
  | wrap
  | unconstrained
  deriving DecidableEq, Repr

/-- ENV_BYTE_ORDER: the byte order of a 16-bit element in the environment's memory (R56, D12). -/
inductive ByteOrder where
  | little
  | big
  deriving DecidableEq, Repr

/-- The static parameters of one instance (R7, R223). -/
structure Params where
  strat : Strategy
  group : Group
  vlmax : VectorWidth
  overflow : OverflowPolicy
  deriving DecidableEq, Repr

/-- The environment's handles of the vector (SRC) and of the output slot (DST), as byte addresses (R56, R59).
They never enter the block. -/
structure Handles where
  src : Nat
  dst : Nat
  deriving DecidableEq, Repr

/-- SAFE_LEN: the largest length for which the accumulator cannot overflow whatever the samples are (R8, R166). -/
def safeLen : Nat := 65536

/-- Free 32-bit values, named by State's counter `fresh`: a data register after a reset event (U15, log 2) and
ACC after an overflowing step under `OverflowPolicy.unconstrained` (U3, log 7). No body: nothing constrains them. -/
opaque freeWord : Nat → Word

/-- Free 16-bit values, named by State's counter `fresh`: RES after a reset event (U15, log 2). -/
opaque freeSample : Nat → Sample

/-- What `tdiv` answers for a divisor of 0, where the spec defines no value and forbids a model to give one (R10, R192;
log 25). No body: nothing constrains it, and no step reads it. -/
opaque zeroQuotient : Int → Int

end Sys2Proof.Config
end

