-- ==== Sys2Proof/WellFormed.lean ====
section
/-! DEFINITION. Well-formedness of instructions and of the environment's handles. -/

namespace Sys2Proof

/-- Every instruction of the syntax is well-formed: a micro-operation has no operand (R82) and every 32-bit value
of `len` is accepted, 0 included (spec/30_encoding.md R88). Written constructor by constructor, so that a new
instruction must say what it checks. -/
def Instr.wf : Instr → Bool
  | .nop => true
  | .clr => true
  | .acc1 => true
  | .acc4 => true
  | .acc8 => true
  | .vred => true
  | .div => true
  | .fmt => true
  | .wr => true
  | .start _ => true

/-- A word a well-formed instruction can have: of format U the defined words 0x0 to 0x8 (R84, R86), of format H a
word with `start` = 1 (R83). -/
def CodeWord.wf : CodeWord → Bool
  | .uop w => decide (w.toNat ≤ 8)
  | .command w => w.getLsbD 32

/-- The environment's handles as R57 asks: SRC and DST are multiples of 2. The block never sees them and checks
nothing (log 14). -/
def Config.Handles.wf (h : Config.Handles) : Bool :=
  decide (h.src % 2 = 0) && decide (h.dst % 2 = 0)

end Sys2Proof
end

