-- ==== Sys2Proof/Decode.lean ====
section
/-! DEFINITION. The decoder of the two word formats and the encoder, from spec/30_encoding.md R82 to R84, R86,
R88, R91. Total on any word and on any bytes; what has no meaning is rejected by name. -/

namespace Sys2Proof

/-- Why a word or a byte string is no instruction. -/
inductive Reject where
  /-- A word 0x9 to 0xF of format U (R86). -/
  | reserved (w : Uop)
  /-- A word of format H with `start` = 0: no command (R83, log 23). -/
  | noCommand
  /-- Bytes with a bit set above the word they hold (log 13). -/
  | strayBits
  deriving DecidableEq, Repr

/-- The opcode map of format U (R84). -/
def opcodeMap : List (Uop × Instr) :=
  [ (0x0#4, .nop),
    (0x1#4, .clr),
    (0x2#4, .acc1),
    (0x3#4, .acc4),
    (0x4#4, .acc8),
    (0x5#4, .vred),
    (0x6#4, .div),
    (0x7#4, .fmt),
    (0x8#4, .wr) ]

/-- The decoder of format U (R91): total on the sixteen words. -/
def decodeUop (w : Uop) : Except Reject Instr :=
  match opcodeMap.find? (fun row => row.1 == w) with
  | some row => .ok row.2
  | none => .error (.reserved w)

/-- The decoder of format H (R83, R88): START when bit 32 is 1, whatever `len` is. -/
def decodeCommand (w : Command) : Except Reject Instr :=
  if w.getLsbD 32 then .ok (.start (w.extractLsb' 0 32)) else .error .noCommand

/-- The decoder of either format. -/
def decode : CodeWord → Except Reject Instr
  | .uop w => decodeUop w
  | .command w => decodeCommand w

/-- The number a string of bytes stands for, the first byte holding the least significant bits (log 13). -/
def bytesValue : List Byte → Nat
  | [] => 0
  | b :: bs => b.toNat + 256 * bytesValue bs

/-- The decoder on bytes: up to four bytes hold a word of format U in their lowest 4 bits, five or more a word of
format H in their lowest 33; the other bits are 0 (log 13: the spec stores no word in any memory). -/
def decodeBytes (bs : List Byte) : Except Reject Instr :=
  if bs.length ≤ 4 then
    if bytesValue bs < 16 then decode (.uop (BitVec.ofNat 4 (bytesValue bs))) else .error .strayBits
  else
    if bytesValue bs < 8589934592 then decode (.command (BitVec.ofNat 33 (bytesValue bs))) else .error .strayBits

/-- The bytes of a number of `n` bytes, least significant first (log 13). -/
def layBytes : Nat → Nat → List Byte
  | 0, _ => []
  | n + 1, v => BitVec.ofNat 8 v :: layBytes n (v / 256)

/-- What the decoder reads from a row of the opcode table whose bits are `w`, numbered as the table numbers them. -/
def decodeTableWord (nbits w : Nat) : Option Instr :=
  match decodeBytes (layBytes ((nbits + 7) / 8) w) with
  | .ok i => some i
  | .error _ => none

/-- The encoder (R84, R91; R83 for START). -/
def encode : Instr → CodeWord
  | .nop => .uop 0x0#4
  | .clr => .uop 0x1#4
  | .acc1 => .uop 0x2#4
  | .acc4 => .uop 0x3#4
  | .acc8 => .uop 0x4#4
  | .vred => .uop 0x5#4
  | .div => .uop 0x6#4
  | .fmt => .uop 0x7#4
  | .wr => .uop 0x8#4
  | .start len => .command (1#1 ++ len)

/-- The bytes of a word: one byte for format U, five for format H (log 13). -/
def CodeWord.bytes : CodeWord → List Byte
  | .uop w => layBytes 1 w.toNat
  | .command w => layBytes 5 w.toNat

end Sys2Proof
end

