-- ==== Sys2Proof/Machine/State.lean ====
section
/-! DEFINITION. The state of one instance (spec/10_state.md R20 to R36), the environment's memory and handles
(spec/20_memory.md R50, R51, R56), what the host presents (spec/30_encoding.md R81, R83), the ways a step can stop,
and the state after reset. -/

namespace Sys2Proof.Machine

/-- PHASE, the sequencer's position: the six register values of R26. Its seventh row, "no value", is the faulted
block, which has no state (R197). -/
inductive Phase where
  | idle
  | init
  | sum
  | divd
  | fmtd
  | done
  deriving DecidableEq, Repr

/-- The environment's memory: address and byte, addresses strictly rising; an address that is not listed is one the
environment does not answer (log 5). -/
abbrev Memory := List Host.Cell

/-- What the outside world presents in one step: the ports `rst`, `start`, `len` (R81), what other agents have
written to memory before the step (R62, U5), the buffers the caller binds before the step (R59), and what stands on the
lanes of `rd_data` above the ones a read asks for (R81, U17; log 22). -/
structure HostInput where
  rst : Bool
  start : Bool
  len : Word
  writes : List Host.Cell
  rebind : Option Config.Handles
  rdSpare : Nat
  deriving DecidableEq, Repr

/-- One instance with its environment and its pending inputs. -/
structure State where
  /-- R21: the running sum. -/
  acc : Word
  /-- R22: the length of this invocation. -/
  len : Word
  /-- R23: the number of samples added, and the index of the next. -/
  idx : Word
  /-- R24: the divider's output. -/
  quo : Word
  /-- R25: the formatter's output. -/
  res : Sample
  /-- R26: the sequencer's position. -/
  phase : Phase
  /-- R7, R33: the static parameters; no step changes them (log 3). -/
  cfg : Config.Params
  /-- R56: ENV_BYTE_ORDER; no step changes it (log 4). -/
  order : Config.ByteOrder
  /-- R56, R59: SRC and DST, the caller's (log 4). -/
  handles : Config.Handles
  /-- R50, R51, R56: the memory that holds the vector and the slot (log 5). That the two lie in one memory is the
  model's choice: 91_not_in_source.md N8 says it must not be assumed (DESIGN CHOICE, log 21). -/
  mem : Memory
  /-- R81, U17: what the environment drives on the lanes of `rd_data` above the ones a read asks for, in this step,
  lowest lane in the lowest bits; no word looks at it (log 22). -/
  rdSpare : Nat
  /-- What the host presents in the coming steps, the next one first; past its end every pin is idle (log 6). -/
  inputs : List HostInput
  /-- The model's own counter of free values drawn (log 18). -/
  fresh : Nat
  deriving DecidableEq, Repr

/-- Why a step has no next state (R191). -/
inductive Fault where
  /-- Raised by DIV when LEN = 0 (R140, R192). Safe: the spec gives the hardware no defined behaviour there and a
  model no next state. -/
  | divideByZero
  /-- Raised by ACC1, ACC4, ACC8 and VRED when the environment does not answer the read (R68, R191): the spec's
  stuck state. Safe: nothing is claimed of a block that waits for ever. -/
  | unansweredRead
  deriving DecidableEq, Repr

/-- Why a word is refused (R86, R87, R92, R191). -/
inductive Refusal where
  /-- Answered by an arm of `exec` that has no meaning yet. Safe: nothing is claimed. No arm answers it. -/
  | notModelled (mnemonic : String)
  /-- Answered by the datapath for a word 0x9 to 0xF (R86). Safe: the sequencer never issues one. -/
  | reservedWord
  /-- Answered by a micro-operation executed outside its issue condition (R87, R108). Safe: the sequencer never
  issues one. -/
  | outOfPhaseWord
  /-- Answered by a step in SUM with IDX above LEN, where R103 names no next word. Safe: R31(a) rules such states
  out (log 11). -/
  | noNextWord
  deriving DecidableEq, Repr

/-- The state right after reset with no host command pending: PHASE = IDLE (R36, R220). The five data registers are
unspecified there and hold 0 here (log 1); the static parameters and the environment are those of log 3 and log 4. -/
def State.reset : State where
  acc := 0#32
  len := 0#32
  idx := 0#32
  quo := 0#32
  res := 0#16
  phase := .idle
  cfg := { strat := .scalar, group := .four, vlmax := ⟨4, by decide⟩, overflow := .wrap }
  order := .little
  handles := { src := 2, dst := 0 }
  mem := []
  rdSpare := 0
  inputs := []
  fresh := 0

end Sys2Proof.Machine
end

