-- ==== Sys2Proof/Machine/Operands.lean ====
section
/-! DEFINITION. Operand assembly and the arithmetic of the datapath: widening, the packed beat and its lanes, the
addition of lanes, division, narrowing, the shift identity (spec/00_scope.md R10; spec/20_memory.md R55;
spec/30_encoding.md R85; spec/43_arithmetic_laws.md R162, R163, R167, R169; spec/42_divide_format.md R145). -/

namespace Sys2Proof.Machine

/-- `sext_32`, the source's widen_to_q17_15: copies bit 15 into bits 31:16 (R9, R85(a), R162). -/
def sext32 (e : Sample) : Word := e.signExtend 32

/-- The packed beat of the elements of one read: lane `k` is bits 16k+15 down to 16k, the lowest index in the
lowest lane (R55). -/
def beat : (es : List Sample) → BitVec (16 * es.length)
  | [] => 0#0
  | e :: es => (beat es ++ e : BitVec (16 * es.length + 16))

/-- Lane `k` of a beat, cut at 16-bit boundaries (R55). -/
def lane {w : Nat} (b : BitVec w) (k : Nat) : Sample := b.extractLsb' (16 * k) 16

/-- The first `n` lanes of a beat, lane 0 first (R55). -/
def lanes {w : Nat} (b : BitVec w) (n : Nat) : List Sample := (List.range n).map (lane b)

/-- NL, the number of lanes of the read port (R81). -/
def laneCount (c : Config.Params) : Nat :=
  match c.strat with
  | .scalar => 1
  | .unroll => c.group.size
  | .vector => c.vlmax.val

/-- P: the lanes, each widened on its own, added modulo 2^32 (R122, R123, R124). -/
def laneSum : List Sample → Word
  | [] => 0#32
  | e :: es => sext32 e + laneSum es

/-- The exact integer sum of the samples, of any size (R100's S). -/
def exactSum : List Sample → Int
  | [] => 0
  | e :: es => e.toInt + exactSum es

/-- Whether an integer has a 32-bit two's-complement pattern (R163). -/
def fits32 (k : Int) : Bool := decide (-2147483648 ≤ k) && decide (k ≤ 2147483647)

/-- `tdiv`: the integer quotient truncated toward zero, for a divisor of at least 1 (R10). At 0 it is not defined and
R192 forbids giving it any value: there it is the opaque `Config.zeroQuotient`, of which nothing can be proved (log 25).
No step reads it: DIV faults (R140, R192). -/
def tdiv (a : Int) (n : Nat) : Int :=
  if n = 0 then Config.zeroQuotient a
  else if 0 ≤ a then a / (n : Int)
  else -(-a / (n : Int))

/-- `from_sint_32`: the 32-bit pattern of an integer (R10). -/
def fromSint32 (k : Int) : Word := BitVec.ofInt 32 k

/-- DIV's quotient: the signed dividend by the unsigned divisor, which is at least 1 wherever a step reads it (R85(c),
R85(d), R140). -/
def quotient (a n : Word) : Word := fromSint32 (tdiv a.toInt n.toNat)

/-- truncate_to_q15: the low 16 bits, no saturation (R85(e), R141, R169). -/
def narrow (q : Word) : Sample := q.extractLsb' 0 16

/-- REM, the number of samples not yet added (R11); 0 where IDX is not below LEN. -/
def State.rem (s : State) : Nat := s.len.toNat - s.idx.toNat

/-- vl, the vector length of a VRED step: min(REM, VLMAX) (R85(b), R124). -/
def State.vl (s : State) : Nat := min s.rem s.cfg.vlmax.val

/-- The bias of R145: 2^k - 1 for a negative accumulator, 0 otherwise. -/
def shiftBias (a : Word) (k : Nat) : Word := if a.msb then BitVec.ofNat 32 (2 ^ k - 1) else 0#32

/-- The shifter that may stand in for the divider when the length is 2^k (R145). -/
def shiftQuotient (a : Word) (k : Nat) : Word := (a + shiftBias a k).sshiftRight k

end Sys2Proof.Machine
end

