-- ==== Sys2Proof/Machine/Flags.lean ====
section
/-! DEFINITION. The block's status. It has no arithmetic flags (spec/10_state.md R28); `busy` and `done` are
functions of PHASE. The overflow of an accumulate step is no flag either: it is judged only for OVERFLOW_POLICY
(spec/93_implementation_defined.md U3). -/

namespace Sys2Proof.Machine

/-- `busy` as a function of PHASE (R26, R28). -/
def Phase.busy : Phase → Bool
  | .idle => false
  | .init => true
  | .sum => true
  | .divd => true
  | .fmtd => true
  | .done => false

/-- `done` as a function of PHASE (R26, R28). -/
def Phase.finished : Phase → Bool
  | .idle => false
  | .init => false
  | .sum => false
  | .divd => false
  | .fmtd => false
  | .done => true

/-- The status level `busy` (R28). -/
def State.busy (s : State) : Bool := s.phase.busy

/-- The status level `done` (R28). -/
def State.finished (s : State) : Bool := s.phase.finished

/-- Whether the exact result of adding these samples to ACC leaves the 32-bit range (R163, U3). -/
def State.leavesRange (s : State) (es : List Sample) : Bool :=
  !fits32 (s.acc.toInt + exactSum es)

/-- Whether adding these samples leaves ACC open: only under OVERFLOW_POLICY = unconstrained, and only when the
exact result leaves the 32-bit range (U3). -/
def State.overflowOpen (s : State) (es : List Sample) : Bool :=
  decide (s.cfg.overflow = .unconstrained) && s.leavesRange es

end Sys2Proof.Machine
end

