-- ==== Sys2Proof/Machine/Ops.lean ====
section
/-! DEFINITION. The named operations over memory and registers: the environment's memory and its byte mapping
(spec/20_memory.md R56), the access primitives VecRead and OutWrite (R53, R54), the register writes of each rule,
the accumulate step the four adders share, and the reset event (spec/70_reset_and_hazards.md R220). The block takes
no exception and returns from none (spec/60_exceptions.md R190, R197, R198), so there is no entry operation. -/

namespace Sys2Proof.Machine

/-! ### The environment's memory -/

/-- The canonical form: addresses strictly rising, so no address twice. -/
abbrev Memory.wf (m : Memory) : Prop := m.Pairwise (fun a b => a.1 < b.1)

/-- One byte; none where the environment does not answer (R68, log 5). -/
def Memory.read : Memory → Nat → Option Byte
  | [], _ => none
  | (k, b) :: m, a => if k = a then some b else Memory.read m a

/-- Write one byte, keeping the canonical form. -/
def Memory.write : Memory → Nat → Byte → Memory
  | [], a, b => [(a, b)]
  | (k, c) :: m, a, b =>
    if a < k then (a, b) :: (k, c) :: m
    else if a = k then (a, b) :: m
    else (k, c) :: Memory.write m a b

/-- Write a list of bytes, the first one first. -/
def Memory.writeAll (m : Memory) : List Host.Cell → Memory
  | [] => m
  | (a, b) :: cs => Memory.writeAll (Memory.write m a b) cs

/-- A 16-bit element from its two bytes, lower address first (R56). -/
def sampleOfBytes (order : Config.ByteOrder) (b0 b1 : Byte) : Sample :=
  match order with
  | .little => (b1 ++ b0 : BitVec 16)
  | .big => (b0 ++ b1 : BitVec 16)

/-- The byte of a 16-bit element that lies at the lower address (R56). -/
def lowerByte (order : Config.ByteOrder) (v : Sample) : Byte :=
  match order with
  | .little => v.extractLsb' 0 8
  | .big => v.extractLsb' 8 8

/-- The byte of a 16-bit element that lies at the higher address (R56). -/
def upperByte (order : Config.ByteOrder) (v : Sample) : Byte :=
  match order with
  | .little => v.extractLsb' 8 8
  | .big => v.extractLsb' 0 8

/-- `MemRead(a, 2)`: the 16-bit element at byte address `a`; none unless both bytes are answered (R56, R58). -/
def Memory.read16 (m : Memory) (order : Config.ByteOrder) (a : Nat) : Option Sample :=
  match Memory.read m a, Memory.read m (a + 1) with
  | some b0, some b1 => some (sampleOfBytes order b0 b1)
  | _, _ => none

/-- `MemWrite(a, 2, v)`: all 16 bits at once (R54, R56, R58). -/
def Memory.write16 (m : Memory) (order : Config.ByteOrder) (a : Nat) (v : Sample) : Memory :=
  Memory.write (Memory.write m a (lowerByte order v)) (a + 1) (upperByte order v)

/-- List 0 at every address of a range the environment does not answer yet (used only to place an instruction,
log 12). -/
def Memory.answerZeros (m : Memory) (a : Nat) : Nat → Memory
  | 0 => m
  | n + 1 =>
    match Memory.read m a with
    | some _ => Memory.answerZeros m (a + 1) n
    | none => Memory.answerZeros (Memory.write m a 0#8) (a + 1) n

/-! ### The two spaces -/

/-- `IN[i]`: the element at SRC + 2*i (R50, R56), in the same memory as OUT by the model's choice (log 21). -/
def State.sample (s : State) (i : Nat) : Option Sample :=
  Memory.read16 s.mem s.order (s.handles.src + 2 * i)

/-- `VecRead(i, n)`: the list of `IN[i]` to `IN[i+n-1]`; none unless the environment answers all of it (R53, R68). -/
def State.vecRead (s : State) (i : Nat) : Nat → Option (List Sample)
  | 0 => some []
  | n + 1 =>
    match s.sample i, State.vecRead s (i + 1) n with
    | some e, some es => some (e :: es)
    | _, _ => none

/-- What the slot OUT holds, as the caller sees it; the block never reads it (R51). -/
def State.out (s : State) : Option Sample :=
  Memory.read16 s.mem s.order s.handles.dst

/-- `OutWrite(v)`: replaces the content of OUT (R54, R56), in the same memory as IN by the model's choice (log 21). -/
def State.outWrite (s : State) (v : Sample) : State :=
  { s with mem := Memory.write16 s.mem s.order s.handles.dst v }

/-! ### Register writes -/

/-- R120: ACC and IDX to zero, PHASE to SUM. -/
def State.clear (s : State) : State :=
  { s with acc := 0#32, idx := 0#32, phase := .sum }

/-- R101: LEN from the `len` port, PHASE to INIT. -/
def State.latchLen (s : State) (n : Word) : State :=
  { s with len := n, phase := .init }

/-- ACC after the samples are added: modulo 2^32 (R121 to R124, R163), or a free value where OVERFLOW_POLICY
leaves it open (U3, log 7). -/
def State.nextAcc (s : State) (es : List Sample) : Word :=
  if s.overflowOpen es then Config.freeWord s.fresh else s.acc + laneSum es

/-- The free-value counter after the samples are added (log 18). -/
def State.nextFresh (s : State) (es : List Sample) : Nat :=
  if s.overflowOpen es then s.fresh + 1 else s.fresh

/-- ACC and IDX after the samples are added (R121 to R124); PHASE stays SUM. -/
def State.addSamples (s : State) (es : List Sample) : State :=
  { s with acc := s.nextAcc es, idx := s.idx + BitVec.ofNat 32 es.length, fresh := s.nextFresh es }

/-- R140: QUO, PHASE to DIVD. -/
def State.latchQuotient (s : State) (q : Word) : State :=
  { s with quo := q, phase := .divd }

/-- R141: RES, PHASE to FMTD. -/
def State.latchResult (s : State) (r : Sample) : State :=
  { s with res := r, phase := .fmtd }

/-- R142: the one write, PHASE to DONE. -/
def State.finish (s : State) : State :=
  { s.outWrite s.res with phase := .done }

/-- `rd_data` when the environment answers these elements: 16*NL bits, the packed beat in the lowest lanes (R55, R81)
and what the environment likes on the lanes above (U17, log 22). -/
def State.readBeat (s : State) (es : List Sample) : BitVec (16 * laneCount s.cfg) :=
  (beat es).setWidth (16 * laneCount s.cfg) ||| BitVec.ofNat (16 * laneCount s.cfg) s.rdSpare <<< (16 * es.length)

/-- The step the four accumulate words share (R121 to R124): read `n` elements from IDX on, cut the lowest `n` lanes of
`rd_data`, widen and add them; the lanes above are ignored (R81). Stuck where the environment does not answer (R68). -/
def accumulate (n : Nat) (s : State) : Host.Outcome State Fault Refusal :=
  match s.vecRead s.idx.toNat n with
  | none => .fault .unansweredRead
  | some es => .next (s.addSamples (lanes (s.readBeat es) n))

/-- A micro-operation outside its issue condition is refused (R87, R108). -/
def issueWhen (ok : Bool) (o : Host.Outcome State Fault Refusal) : Host.Outcome State Fault Refusal :=
  if ok then o else .refused .outOfPhaseWord

/-! ### The world between steps -/

/-- The reset event (R220): PHASE to IDLE, no access; the five data registers hold unspecified values afterwards
(R36, U15), each a free value of its own (log 2). -/
def State.resetEvent (s : State) : State :=
  { s with
    acc := Config.freeWord s.fresh
    len := Config.freeWord (s.fresh + 1)
    idx := Config.freeWord (s.fresh + 2)
    quo := Config.freeWord (s.fresh + 3)
    res := Config.freeSample s.fresh
    phase := .idle
    fresh := s.fresh + 4 }

/-- A step in which the host does nothing. -/
def HostInput.idle : HostInput :=
  { rst := false, start := false, len := 0#32, writes := [], rebind := none, rdSpare := 0 }

/-- A step in which the host presents START with a length (R83). -/
def HostInput.startCmd (n : Word) : HostInput :=
  { rst := false, start := true, len := n, writes := [], rebind := none, rdSpare := 0 }

/-- What the host presents in the coming step; every pin idle past the end of the list (log 6). -/
def State.nextInput (s : State) : HostInput := s.inputs.headD HostInput.idle

/-- The state in which the coming step executes: its input taken off the list, and what the caller and other agents
did to the environment before it done (R59, R62, log 6, log 15), with what it drives above the lanes of a read (log 22). -/
def State.afterInput (s : State) : State :=
  { s with
    handles := s.nextInput.rebind.getD s.handles
    mem := Memory.writeAll s.mem s.nextInput.writes
    rdSpare := s.nextInput.rdSpare
    inputs := s.inputs.tail }

end Sys2Proof.Machine
end

