-- ==== Sys2Proof/Machine/Sequencer.lean ====
section
/-! DEFINITION. The control flow of the block: which word comes next (spec/40_invocation.md R103), the issue
condition of every word (R108), the sequence of a whole invocation (R93, R104 to R107) and its length
(spec/70_reset_and_hazards.md R234), and how an instruction is placed to be the next one executed (log 12). -/

namespace Sys2Proof.Machine

/-! ### Issue conditions (R108) -/

/-- NOP: PHASE is IDLE or DONE (R108, R143). That no START is being accepted is the step's choice of word. -/
def State.canNop (s : State) : Bool := decide (s.phase = .idle) || decide (s.phase = .done)

/-- CLR: PHASE is INIT (R108, R120). -/
def State.canClr (s : State) : Bool := decide (s.phase = .init)

/-- ACC1: SUM, REM at least 1, and STRAT = SCALAR or STRAT = UNROLL with REM below G (R108, R121). -/
def State.canAcc1 (s : State) : Bool :=
  decide (s.phase = .sum) && decide (1 ≤ s.rem) &&
    (decide (s.cfg.strat = .scalar) || (decide (s.cfg.strat = .unroll) && decide (s.rem < s.cfg.group.size)))

/-- ACC4: SUM, REM at least 4, STRAT = UNROLL and G = 4 (R108, R122). -/
def State.canAcc4 (s : State) : Bool :=
  decide (s.phase = .sum) && decide (4 ≤ s.rem) && decide (s.cfg.strat = .unroll) && decide (s.cfg.group = .four)

/-- ACC8: SUM, REM at least 8, STRAT = UNROLL and G = 8 (R108, R123). -/
def State.canAcc8 (s : State) : Bool :=
  decide (s.phase = .sum) && decide (8 ≤ s.rem) && decide (s.cfg.strat = .unroll) && decide (s.cfg.group = .eight)

/-- VRED: SUM, REM at least 1, STRAT = VECTOR (R108, R124). -/
def State.canVred (s : State) : Bool :=
  decide (s.phase = .sum) && decide (1 ≤ s.rem) && decide (s.cfg.strat = .vector)

/-- DIV: SUM and IDX = LEN (R108, R140). -/
def State.canDiv (s : State) : Bool := decide (s.phase = .sum) && decide (s.idx = s.len)

/-- FMT: DIVD (R108, R141). -/
def State.canFmt (s : State) : Bool := decide (s.phase = .divd)

/-- WR: FMTD (R108, R142). -/
def State.canWr (s : State) : Bool := decide (s.phase = .fmtd)

/-- START is accepted in IDLE and DONE (R101). -/
def State.canStart (s : State) : Bool := decide (s.phase = .idle) || decide (s.phase = .done)

/-- The table of R108 as one function. -/
def issueOk : Instr → State → Bool
  | .nop, s => s.canNop
  | .clr, s => s.canClr
  | .acc1, s => s.canAcc1
  | .acc4, s => s.canAcc4
  | .acc8, s => s.canAcc8
  | .vred, s => s.canVred
  | .div, s => s.canDiv
  | .fmt, s => s.canFmt
  | .wr, s => s.canWr
  | .start _, s => s.canStart

/-! ### The next word (R103) -/

/-- The group word of the build: ACC4 or ACC8 (R103). -/
def groupWord : Config.Group → Instr
  | .four => .acc4
  | .eight => .acc8

/-- The accumulate word while `rem` samples are left, at least one (R103). -/
def sumWord (p : Config.Params) (rem : Nat) : Instr :=
  match p.strat with
  | .scalar => .acc1
  | .unroll => if p.group.size ≤ rem then groupWord p.group else .acc1
  | .vector => .vred

/-- The number of samples the next accumulate word adds while `rem` are left (R27, R103). -/
def sumCount (p : Config.Params) (rem : Nat) : Nat :=
  match p.strat with
  | .scalar => 1
  | .unroll => if p.group.size ≤ rem then p.group.size else 1
  | .vector => min rem p.vlmax.val

/-- `next` of R103: a function of the static parameters, PHASE, IDX and LEN alone. In SUM with IDX above LEN the
rule names no word (log 11). -/
def sequencer (s : State) : Option Instr :=
  match s.phase with
  | .idle => some .nop
  | .init => some .clr
  | .sum =>
    if s.idx = s.len then some .div
    else if s.idx.toNat < s.len.toNat then some (sumWord s.cfg s.rem)
    else none
  | .divd => some .fmt
  | .fmtd => some .wr
  | .done => some .nop

/-- What a step executes: START in place of NOP when `start` = 1 and busy = 0, else the sequencer's word; a START
into a busy block is dropped (R101, R102, R103). -/
def issued (p : HostInput) (s : State) : Option Instr :=
  if p.start && !s.busy then some (.start p.len) else sequencer s

/-- The same as the word the datapath is given: format U from the sequencer, format H from the host (R82, R83). -/
def issuedWord (p : HostInput) (s : State) : Option CodeWord :=
  match issued p s with
  | some i => some (encode i)
  | none => none

/-! ### Whole invocations (R93, R104 to R107, R234) -/

/-- The accumulate words of an invocation of length `n` (R104, R105, R106). -/
def sumWords (p : Config.Params) (n : Nat) : List Instr :=
  match p.strat with
  | .scalar => List.replicate n .acc1
  | .unroll => List.replicate (n / p.group.size) (groupWord p.group) ++ List.replicate (n % p.group.size) .acc1
  | .vector => List.replicate (n / p.vlmax.val) .vred ++ (if n % p.vlmax.val = 0 then [] else [.vred])

/-- The micro-operations of one invocation of length `n`, after START (R93, R104 to R107). For `n` = 0 they are CLR and
the DIV that faults, as R104 and R140 say; that R93's "ending with DIV, FMT, WR" is meant for `n` of at least 1 is
DEDUCED (log 24). -/
def meanWords (p : Config.Params) (n : Nat) : List Instr :=
  .clr :: (sumWords p n ++ if n = 0 then [.div] else [.div, .fmt, .wr])

/-- The pseudo-operation MEAN: START and its micro-operations (R93; log 24 for length 0). -/
def expandMean (p : Config.Params) (n : Word) : List Instr := .start n :: meanWords p n.toNat

/-- The number of accumulate steps of an invocation of length `n` (R234). -/
def sumSteps (p : Config.Params) (n : Nat) : Nat :=
  match p.strat with
  | .scalar => n
  | .unroll => n / p.group.size + n % p.group.size
  | .vector => (n + p.vlmax.val - 1) / p.vlmax.val

/-- The number of micro-operations from an accepted START, not counted, to DONE, for `n` of at least 1 (R234); an
invocation of length 0 never reaches DONE. -/
def meanSteps (p : Config.Params) (n : Nat) : Nat := sumSteps p n + 4

/-! ### Placing an instruction (log 12) -/

/-- A state in SUM with no sample added, `n` samples to come, a given strategy and group, and an environment that
answers the reads. -/
def State.placeSum (s : State) (strat : Config.Strategy) (group : Config.Group) (n : Nat) : State :=
  { s with
    phase := .sum
    idx := 0#32
    len := BitVec.ofNat 32 n
    cfg := { s.cfg with strat := strat, group := group }
    mem := Memory.answerZeros s.mem s.handles.src (2 * n) }

/-- A state whose next word is the given one, with the host idle in the coming step (START: presenting the
command). The sequencer selects the word, so what selects it is set (log 12). -/
def State.placeInstr (s : State) : Instr → State
  | .nop => { s with phase := .idle, inputs := HostInput.idle :: s.inputs }
  | .clr => { s with phase := .init, inputs := HostInput.idle :: s.inputs }
  | .acc1 => { s.placeSum .scalar s.cfg.group 1 with inputs := HostInput.idle :: s.inputs }
  | .acc4 => { s.placeSum .unroll .four 4 with inputs := HostInput.idle :: s.inputs }
  | .acc8 => { s.placeSum .unroll .eight 8 with inputs := HostInput.idle :: s.inputs }
  | .vred => { s.placeSum .vector s.cfg.group 1 with inputs := HostInput.idle :: s.inputs }
  | .div => { s with phase := .sum, idx := 1#32, len := 1#32, inputs := HostInput.idle :: s.inputs }
  | .fmt => { s with phase := .divd, inputs := HostInput.idle :: s.inputs }
  | .wr => { s with phase := .fmtd, inputs := HostInput.idle :: s.inputs }
  | .start n => { s with phase := .idle, inputs := HostInput.startCmd n :: s.inputs }

end Sys2Proof.Machine
end

