-- ==== Sys2Proof/Machine/Accumulate.lean ====
section
/-! DEFINITION. The accumulate family CLR, ACC1, ACC4, ACC8, VRED (spec/41_accumulate.md R120 to R126). None of the
five writes a flag and none changes LEN, QUO or RES (R125); only CLR changes PHASE. -/

namespace Sys2Proof.Machine

/-- CLR (R120). -/
def execClr (s : State) : Host.Outcome State Fault Refusal :=
  issueWhen s.canClr (.next s.clear)

/-- ACC1, the sequential adder step (R121). -/
def execAcc1 (s : State) : Host.Outcome State Fault Refusal :=
  issueWhen s.canAcc1 (accumulate 1 s)

/-- ACC4, the 4-input sum-reduction-tree step (R122). -/
def execAcc4 (s : State) : Host.Outcome State Fault Refusal :=
  issueWhen s.canAcc4 (accumulate 4 s)

/-- ACC8, the 8-input sum-reduction-tree step (R123). -/
def execAcc8 (s : State) : Host.Outcome State Fault Refusal :=
  issueWhen s.canAcc8 (accumulate 8 s)

/-- VRED, the widening vector reduction step over vl = min(REM, VLMAX) samples (R124). -/
def execVred (s : State) : Host.Outcome State Fault Refusal :=
  issueWhen s.canVred (accumulate s.vl s)

end Sys2Proof.Machine
end

