-- ==== Sys2Proof/Machine/Finish.lean ====
section
/-! DEFINITION. The finishing family DIV, FMT, WR, and NOP (spec/42_divide_format.md R140 to R143). None of the four
writes a flag. -/

namespace Sys2Proof.Machine

/-- DIV (R140): the fault DivideByZero when LEN = 0 (R192), else the truncated quotient. -/
def execDiv (s : State) : Host.Outcome State Fault Refusal :=
  issueWhen s.canDiv
    (if s.len = 0#32 then .fault .divideByZero else .next (s.latchQuotient (quotient s.acc s.len)))

/-- FMT (R141): the low half of QUO. -/
def execFmt (s : State) : Host.Outcome State Fault Refusal :=
  issueWhen s.canFmt (.next (s.latchResult (narrow s.quo)))

/-- WR (R142): the one write of an invocation. -/
def execWr (s : State) : Host.Outcome State Fault Refusal :=
  issueWhen s.canWr (.next s.finish)

/-- NOP (R143): nothing is written. -/
def execNop (s : State) : Host.Outcome State Fault Refusal :=
  issueWhen s.canNop (.next s)

end Sys2Proof.Machine
end

