-- ==== Sys2Proof/Machine/Invocation.lean ====
section
/-! DEFINITION. The host command START (spec/40_invocation.md R101, R102) and the contract of one invocation, MEAN,
as a function of the samples (R100). -/

namespace Sys2Proof.Machine

/-- START: accepted in IDLE and DONE (R101), ignored with no register changed while the block is busy (R102). -/
def execStart (n : Word) (s : State) : Host.Outcome State Fault Refusal :=
  if s.canStart then .next (s.latchLen n) else .next s

/-- A of R100: the accumulator at the end of the SUM phase. -/
def meanAcc (es : List Sample) : Word := fromSint32 (exactSum es)

/-- Q of R100: the quotient, for a vector of length at least 1 (for none, log 25). -/
def meanQuo (es : List Sample) : Word := fromSint32 (tdiv (meanAcc es).toInt es.length)

/-- What R100 writes to OUT for the vector `es`, of length at least 1. -/
def meanOut (es : List Sample) : Sample := narrow (meanQuo es)

end Sys2Proof.Machine
end

