-- ==== Sys2Proof/Machine/Dispatch.lean ====
section
/-! DEFINITION. exec: one arm per constructor of Instr, each a direct call of that instruction's meaning. -/

namespace Sys2Proof.Machine

def exec (i : Instr) (s : State) : Host.Outcome State Fault Refusal :=
  match i with
  | .nop => Sys2Proof.Machine.execNop s
  | .clr => Sys2Proof.Machine.execClr s
  | .acc1 => Sys2Proof.Machine.execAcc1 s
  | .acc4 => Sys2Proof.Machine.execAcc4 s
  | .acc8 => Sys2Proof.Machine.execAcc8 s
  | .vred => Sys2Proof.Machine.execVred s
  | .div => Sys2Proof.Machine.execDiv s
  | .fmt => Sys2Proof.Machine.execFmt s
  | .wr => Sys2Proof.Machine.execWr s
  | .start n => Sys2Proof.Machine.execStart n s

end Sys2Proof.Machine
end

