-- ==== Sys2Proof/Machine/Step.lean ====
section
/-! DEFINITION. One step of the block (spec/40_invocation.md R103; spec/70_reset_and_hazards.md R220). -/

namespace Sys2Proof.Machine

/-- The block on one word: decode it and execute it. Of format U a reserved word is refused (R86), and so is a word
other than the one the sequencer yields, by the issue condition of its meaning (R87, R92). Format H has no reserved word
(R88): with `start` = 0 it is no command (R83) and does nothing (DEDUCED, log 23). -/
def runWord (w : CodeWord) (s : State) : Host.Outcome State Fault Refusal :=
  match w with
  | .uop u =>
    match decodeUop u with
    | .ok i => exec i s
    | .error _ => .refused .reservedWord
  | .command c =>
    match decodeCommand c with
    | .ok i => exec i s
    | .error _ => .next s

/-- What a step does once its input is taken: a reset wins over everything (R220); else the issued word runs (R103). -/
def stepWith (p : HostInput) (s : State) : Host.Outcome State Fault Refusal :=
  if p.rst then .next s.resetEvent
  else
    match issuedWord p s with
    | some w => runWord w s
    | none => .refused .noNextWord

/-- One step: take the host's input of this step, then reset or execute the issued word. -/
def step (s : State) : Host.Outcome State Fault Refusal := stepWith s.nextInput s.afterInput

/-- `s` with the instruction of these bits placed so that the very next step executes it; `s` itself where the bits
are no instruction (log 12, log 13). -/
def State.withFetchWord (s : State) (nbits w : Nat) : State :=
  match decodeTableWord nbits w with
  | some i => s.placeInstr i
  | none => s

end Sys2Proof.Machine
end

