-- ==== Sys2Proof/Machine/Ports.lean ====
section
/-! DEFINITION. The ports of one instance (spec/30_encoding.md R81), as functions of the step's input and of
the state the step executes in. Where R81 and U17 leave a port unspecified the function answers none (log 16). The input ports `rst`, `start` and `len` are the fields of
HostInput; `clk` is the step itself (log 17). -/

namespace Sys2Proof.Machine

/-- The micro-operation a step executes; none in reset, and none when START takes the place of NOP (R81, R103). -/
def uopInstr (p : HostInput) (s : State) : Option Instr :=
  if p.rst then none
  else if p.start && !s.busy then none
  else sequencer s

/-- The format U word of an instruction; START has none (R82). -/
def uopWordOf (i : Instr) : Option Uop :=
  match encode i with
  | .uop w => some w
  | .command _ => none

/-- The trace port `uop` (R81, R92, R205). -/
def uopPort (p : HostInput) (s : State) : Option Uop :=
  match uopInstr p s with
  | some i => uopWordOf i
  | none => none

/-- The number of elements an instruction reads (R84, R85(b)). -/
def readCount (s : State) : Instr → Nat
  | .nop => 0
  | .clr => 0
  | .acc1 => 1
  | .acc4 => 4
  | .acc8 => 8
  | .vred => s.vl
  | .div => 0
  | .fmt => 0
  | .wr => 0
  | .start _ => 0

/-- The number of elements the step requests; 0 when it makes no read. -/
def requestCount (p : HostInput) (s : State) : Nat :=
  match uopInstr p s with
  | some i => readCount s i
  | none => 0

/-- `rd_req`: 1 while a read request is outstanding (R81). -/
def rdReq (p : HostInput) (s : State) : Bool := decide (requestCount p s ≠ 0)

/-- `rd_idx`: IDX, while `rd_req` = 1 (R81, U17). -/
def rdIdx (p : HostInput) (s : State) : Option Word := if rdReq p s then some s.idx else none

/-- `rd_n`: 1, 4, 8 or vl, while `rd_req` = 1 (R81, U17). -/
def rdN (p : HostInput) (s : State) : Option Nat := if rdReq p s then some (requestCount p s) else none

/-- `rd_ack`: the environment answers the outstanding request (R68, R81). -/
def rdAck (p : HostInput) (s : State) : Bool :=
  rdReq p s && (s.vecRead s.idx.toNat (requestCount p s)).isSome

/-- `rd_data`: 16*NL bits, valid while `rd_ack` = 1 (R81); none otherwise (log 16). -/
def rdData (p : HostInput) (s : State) : Option (BitVec (16 * laneCount s.cfg)) :=
  match s.vecRead s.idx.toNat (requestCount p s) with
  | some es => if rdReq p s then some (s.readBeat es) else none
  | none => none

/-- The element indices the step reads, in order (R61, R110). -/
def readIndices (p : HostInput) (s : State) : List Nat :=
  List.range' s.idx.toNat (requestCount p s)

/-- `wr_en`: 1 during the step WR (R81, R142). -/
def wrEn (p : HostInput) (s : State) : Bool := decide (uopInstr p s = some .wr)

/-- `wr_data`: RES during the step WR (R81, R142, U17). -/
def wrData (p : HostInput) (s : State) : Option Sample := if wrEn p s then some s.res else none

end Sys2Proof.Machine
end

