-- ==== Sys2Proof/Safety.lean ====
section
/-! DEFINITION. The terms the claims use: the invariants of spec/10_state.md R31, what a host and an environment that
keep the contract do (spec/70_reset_and_hazards.md R224), runs and what is seen of them, and when two states cannot be
told apart by any later step (R32, R34). -/

namespace Sys2Proof.Machine

/-! ### Where the sequencer is -/

/-- CLR has been executed in this invocation: SUM, DIVD, FMTD or DONE (R31). -/
def Phase.cleared : Phase → Bool
  | .idle => false
  | .init => false
  | .sum => true
  | .divd => true
  | .fmtd => true
  | .done => true

/-- DIV has been executed in this invocation: DIVD, FMTD or DONE (R31). -/
def Phase.divided : Phase → Bool
  | .idle => false
  | .init => false
  | .sum => false
  | .divd => true
  | .fmtd => true
  | .done => true

/-- FMT has been executed in this invocation: FMTD or DONE (R31). -/
def Phase.formatted : Phase → Bool
  | .idle => false
  | .init => false
  | .sum => false
  | .divd => false
  | .fmtd => true
  | .done => true

/-! ### Invariants -/

/-- R31(a), (c), (d), (e): the invariants on the registers alone. -/
structure State.RegInv (s : State) : Prop where
  idx_le_len : s.phase.cleared = true → s.idx.toNat ≤ s.len.toNat
  idx_eq_len : s.phase.divided = true → s.idx = s.len
  len_pos : s.phase.divided = true → 1 ≤ s.len.toNat
  quo_eq : s.phase.divided = true → s.quo.toInt = tdiv s.acc.toInt s.len.toNat
  res_eq : s.phase.formatted = true → s.res = narrow s.quo

/-- The headroom of R166, as far as the samples added so far allow: up to SAFE_LEN samples ACC lies between the sum
of as many least and as many greatest samples. It holds whatever memory does meanwhile. -/
def State.AccBounded (s : State) : Prop :=
  s.phase.cleared = true → s.idx.toNat ≤ Config.safeLen →
    -32768 * (s.idx.toNat : Int) ≤ s.acc.toInt ∧ s.acc.toInt ≤ 32767 * (s.idx.toNat : Int)

/-- The invariant every step keeps: memory in its canonical form, R31 on the registers, the headroom of R166. -/
structure State.Inv (s : State) : Prop where
  mem_wf : Memory.wf s.mem
  regs : s.RegInv
  bounded : s.AccBounded

/-- The output slot lies outside the input vector of this invocation (R69 says what happens otherwise). -/
def State.OutApart (s : State) : Prop :=
  s.handles.dst + 2 ≤ s.handles.src ∨ s.handles.src + 2 * s.len.toNat ≤ s.handles.dst

/-- R31(b): the samples added so far are `IN[0]` to `IN[IDX-1]` as memory holds them, and ACC is their sum modulo
2^32. In DONE it is asked only where the one write has not changed the vector. -/
def State.SumInv (s : State) : Prop :=
  (s.phase = .sum ∨ s.phase = .divd ∨ s.phase = .fmtd ∨ (s.phase = .done ∧ s.OutApart)) →
    ∃ es, s.vecRead 0 s.idx.toNat = some es ∧ (s.acc.toNat : Int) = exactSum es % 4294967296

/-! ### What the outside world does -/

/-- No other agent touches the environment in this step (R62, R224 items 2 to 4). -/
def HostInput.Quiet (p : HostInput) : Prop := p.writes = [] ∧ p.rebind = none

/-- Nothing but `start` and `len` moves: no reset and a quiet environment. -/
def HostInput.Steady (p : HostInput) : Prop := p.rst = false ∧ p.Quiet

/-- The environment stays as it is for as long as the inputs say (R224 items 2 to 4). -/
def State.QuietAhead (s : State) : Prop := ∀ p ∈ s.inputs, p.Quiet

/-- The environment answers the read the step makes (R68). A step that reads nothing has nothing to be answered. -/
def State.Answered (s : State) : Prop :=
  (s.afterInput.vecRead s.idx.toNat (requestCount s.nextInput s.afterInput)).isSome = true

/-! ### Runs and what is seen of them -/

/-- `k` steps. -/
def runSteps : Nat → State → Host.Outcome State Fault Refusal
  | 0, s => .next s
  | k + 1, s =>
    match step s with
    | .next t => runSteps k t
    | .fault f => .fault f
    | .refused r => .refused r

/-- The words the trace port `uop` shows in `k` steps (R92, R205). -/
def runUops : Nat → State → List Uop
  | 0, _ => []
  | k + 1, s =>
    (uopPort s.nextInput s.afterInput).toList ++
      match step s with
      | .next t => runUops k t
      | .fault _ => []
      | .refused _ => []

/-- The element indices read in `k` steps, in order (R61, R110). -/
def runReads : Nat → State → List Nat
  | 0, _ => []
  | k + 1, s =>
    readIndices s.nextInput s.afterInput ++
      match step s with
      | .next t => runReads k t
      | .fault _ => []
      | .refused _ => []

/-- The values driven on the write port in `k` steps, in order (R51, R142). -/
def runWrites : Nat → State → List Sample
  | 0, _ => []
  | k + 1, s =>
    (wrData s.nextInput s.afterInput).toList ++
      match step s with
      | .next t => runWrites k t
      | .fault _ => []
      | .refused _ => []

/-! ### What a later step can depend on -/

/-- Two states that may differ only in registers no later step reads before it is written (R29, R34): LEN counts in
INIT and SUM, ACC and IDX in SUM, QUO in DIVD, RES in FMTD; everything else counts always but `rdSpare`, which no word looks at (U17). -/
structure State.Agree (s t : State) : Prop where
  phase_eq : s.phase = t.phase
  cfg_eq : s.cfg = t.cfg
  order_eq : s.order = t.order
  handles_eq : s.handles = t.handles
  mem_eq : s.mem = t.mem
  inputs_eq : s.inputs = t.inputs
  fresh_eq : s.fresh = t.fresh
  len_eq : s.phase = .init ∨ s.phase = .sum → s.len = t.len
  acc_eq : s.phase = .sum → s.acc = t.acc
  idx_eq : s.phase = .sum → s.idx = t.idx
  quo_eq : s.phase = .divd → s.quo = t.quo
  res_eq : s.phase = .fmtd → s.res = t.res

/-- Two outcomes that cannot be told apart by what follows: next states that agree, or the same stop. -/
def OutcomeAgree (a b : Host.Outcome State Fault Refusal) : Prop :=
  match a, b with
  | .next s, .next t => s.Agree t
  | .fault f, .fault g => f = g
  | .refused q, .refused r => q = r
  | _, _ => False

end Sys2Proof.Machine
end

