-- ==== Sys2Proof/Certificates/Slice0/Obligations.lean ====
section
/-! DEFINITION. The statements for the provers, from the numbered rules of spec/. OBLIGATIONS.json lists them with
their tiers, bases and citations. -/

open Sys2Proof Sys2Proof.Machine

/-! ### Encoding -/

/-- R84, R91, R83: decoding the word of any well-formed instruction gives the instruction back, from the word itself
and from its bytes, with every operand at every value; the bytes clause rests on log 13. -/
def Obligations.DecodeOfEncode : Prop :=
  ∀ i : Instr, i.wf = true → decode (encode i) = .ok i ∧ decodeBytes (encode i).bytes = .ok i

/-- R83, R86, R91: a word decodes to an instruction exactly when it is the word of an instruction: 0x0 to 0x8 of format U,
or `start` = 1 of format H; and it is then the one word of that instruction. Any other word is rejected by name: every
word 0x9 to 0xF as reserved, and every format H word with `start` = 0, which R88 calls defined and which is no command, as
noCommand, the decoder's reading of it (DEDUCED, log 23). -/
def Obligations.EncodeOfDecode : Prop :=
  (∀ c : CodeWord, (∀ i, decode c = .ok i → encode i = c) ∧ ((∃ i, decode c = .ok i) ↔ c.wf = true)) ∧
  (∀ w : Uop, 9 ≤ w.toNat → decode (.uop w) = .error (.reserved w)) ∧
  (∀ c : Command, c.getLsbD 32 = false → decode (.command c) = .error .noCommand)

/-- R91: the decoder on the sixteen words of format U. -/
def Obligations.UopDecodeTable : Prop :=
  decodeUop 0x0#4 = .ok .nop ∧ decodeUop 0x1#4 = .ok .clr ∧ decodeUop 0x2#4 = .ok .acc1 ∧
  decodeUop 0x3#4 = .ok .acc4 ∧ decodeUop 0x4#4 = .ok .acc8 ∧ decodeUop 0x5#4 = .ok .vred ∧
  decodeUop 0x6#4 = .ok .div ∧ decodeUop 0x7#4 = .ok .fmt ∧ decodeUop 0x8#4 = .ok .wr ∧
  (∀ w : Uop, 9 ≤ w.toNat → decodeUop w = .error (.reserved w)) ∧
  (∀ i w, encode i = .uop w → decodeUop w = .ok i)

/-! ### The sequencer and the step -/

/-- R103: the next word, what it depends on, and the step that executes it, START taking the place of NOP. -/
def Obligations.NextWordTable : Prop :=
  (∀ s : State,
    (s.phase = .idle → sequencer s = some .nop) ∧
    (s.phase = .init → sequencer s = some .clr) ∧
    (s.phase = .sum → s.idx = s.len → sequencer s = some .div) ∧
    (s.phase = .sum → s.idx.toNat < s.len.toNat → s.cfg.strat = .scalar → sequencer s = some .acc1) ∧
    (s.phase = .sum → s.idx.toNat < s.len.toNat → s.cfg.strat = .unroll → s.cfg.group = .four → 4 ≤ s.rem →
      sequencer s = some .acc4) ∧
    (s.phase = .sum → s.idx.toNat < s.len.toNat → s.cfg.strat = .unroll → s.cfg.group = .eight → 8 ≤ s.rem →
      sequencer s = some .acc8) ∧
    (s.phase = .sum → s.idx.toNat < s.len.toNat → s.cfg.strat = .unroll → s.rem < s.cfg.group.size →
      sequencer s = some .acc1) ∧
    (s.phase = .sum → s.idx.toNat < s.len.toNat → s.cfg.strat = .vector → sequencer s = some .vred) ∧
    (s.phase = .divd → sequencer s = some .fmt) ∧
    (s.phase = .fmtd → sequencer s = some .wr) ∧
    (s.phase = .done → sequencer s = some .nop)) ∧
  (∀ s t : State, s.cfg = t.cfg → s.phase = t.phase → s.idx = t.idx → s.len = t.len → sequencer s = sequencer t) ∧
  (∀ s : State, s.nextInput.rst = false →
    (s.nextInput.start = true → s.busy = false → step s = exec (.start s.nextInput.len) s.afterInput) ∧
    (s.nextInput.start = false ∨ s.busy = true → ∀ i, sequencer s = some i → step s = exec i s.afterInput))

/-- A step runs the decoded instruction: the issued word is taken apart by the decoder and step is exec of what it
reads, in the state whose input has been taken (R82, R91, R103; log 6 for the input). The word is on the trace port. -/
def Obligations.StepRunsDecodedWord : Prop :=
  ∀ (s : State) (w : CodeWord) (i : Instr), s.nextInput.rst = false →
    issuedWord s.nextInput s.afterInput = some w → decode w = .ok i →
      step s = exec i s.afterInput ∧ ∀ u, w = .uop u → uopPort s.nextInput s.afterInput = some u

/-- R103, R108, R87: the issue condition of every micro-operation, as `issueOk` gives it, is the sequencer's choice of it
read backwards, and outside it the word is refused. For NOP, R108 and R143 also ask that no START is being accepted
(`start` = 0); `issueOk` and exec do not look at that, the step's choice of the word does: this clause is the model's
(DEDUCED, log 10). -/
def Obligations.IssueConditionIsSequencerChoice : Prop :=
  ∀ (s : State) (i : Instr), (∀ n, i ≠ .start n) →
    (issueOk i s = true ↔ sequencer s = some i) ∧
    (issueOk i s = false → exec i s = .refused .outOfPhaseWord)

/-- R86, R87, R92: the datapath refuses every format U word other than the one the sequencer yields: a reserved word
as reserved, a defined one as out of phase. -/
def Obligations.OnlyTheSequencersWordRuns : Prop :=
  ∀ (s : State) (w : Uop), (∀ i, sequencer s = some i → encode i ≠ .uop w) →
    (9 ≤ w.toNat → runWord (.uop w) s = .refused .reservedWord) ∧
    (w.toNat ≤ 8 → runWord (.uop w) s = .refused .outOfPhaseWord)

/-- R83, R88: both patterns of `start` in a word of format H are defined: with 1 it is START with its length, whatever
that is, and with 0 it is no command and changes nothing, which for the word alone is the model's reading (log 23). In a
step with `start` = 0 what stands on the `len` port does not matter. -/
def Obligations.HostWordIsDefined : Prop :=
  (∀ (s : State) (n : Word), runWord (.command (1#1 ++ n)) s = exec (.start n) s) ∧
  (∀ (s : State) (n : Word), runWord (.command (0#1 ++ n)) s = .next s) ∧
  (∀ (s : State) (p : HostInput) (ps : List HostInput) (n : Word), s.inputs = p :: ps → p.start = false →
    step s = step { s with inputs := { p with len := n } :: ps })

/-! ### The accumulate family -/

/-- R120: CLR. -/
def Obligations.ClrClearsAccumulator : Prop :=
  encode .clr = .uop 0x1#4 ∧
  ∀ s : State,
    (s.phase = .init → exec .clr s = .next { s with acc := 0#32, idx := 0#32, phase := .sum }) ∧
    (s.phase ≠ .init → exec .clr s = .refused .outOfPhaseWord)

/-- R121: ACC1 adds one sign-extended sample modulo 2^32 (under OVERFLOW_POLICY = wrap, the spec's decision, or where
the sum fits; the open case is Obligations.OpenOverflowIsFree). -/
def Obligations.Acc1AddsOneSample : Prop :=
  encode .acc1 = .uop 0x2#4 ∧
  ∀ (s : State) (e : Sample), s.phase = .sum → 1 ≤ s.rem →
    (s.cfg.strat = .scalar ∨ (s.cfg.strat = .unroll ∧ s.rem < s.cfg.group.size)) →
    s.vecRead s.idx.toNat 1 = some [e] →
    (s.cfg.overflow = .wrap ∨ (-2147483648 ≤ s.acc.toInt + e.toInt ∧ s.acc.toInt + e.toInt ≤ 2147483647)) →
      exec .acc1 s = .next { s with acc := s.acc + e.signExtend 32, idx := s.idx + 1#32 }

/-- R122: ACC4 adds the four lanes of one beat, each sign-extended on its own: what four ACC1 additions of the same
elements would leave in ACC. -/
def Obligations.Acc4AddsFourLanes : Prop :=
  encode .acc4 = .uop 0x3#4 ∧
  ∀ (s : State) (e0 e1 e2 e3 : Sample), s.phase = .sum → 4 ≤ s.rem → s.cfg.strat = .unroll → s.cfg.group = .four →
    s.vecRead s.idx.toNat 4 = some [e0, e1, e2, e3] →
    (s.cfg.overflow = .wrap ∨ fits32 (s.acc.toInt + (e0.toInt + e1.toInt + e2.toInt + e3.toInt)) = true) →
      exec .acc4 s = .next
        { s with
          acc := s.acc + (e0.signExtend 32 + e1.signExtend 32 + e2.signExtend 32 + e3.signExtend 32)
          idx := s.idx + 4#32 } ∧
      s.acc + (e0.signExtend 32 + e1.signExtend 32 + e2.signExtend 32 + e3.signExtend 32) =
        s.acc + e0.signExtend 32 + e1.signExtend 32 + e2.signExtend 32 + e3.signExtend 32

/-- R123: ACC8 adds the eight lanes of one beat, each sign-extended on its own: what two ACC4 additions or eight ACC1
additions of the same elements would leave in ACC. -/
def Obligations.Acc8AddsEightLanes : Prop :=
  encode .acc8 = .uop 0x4#4 ∧
  ∀ (s : State) (e0 e1 e2 e3 e4 e5 e6 e7 : Sample),
    s.phase = .sum → 8 ≤ s.rem → s.cfg.strat = .unroll → s.cfg.group = .eight →
    s.vecRead s.idx.toNat 8 = some [e0, e1, e2, e3, e4, e5, e6, e7] →
    (s.cfg.overflow = .wrap ∨ fits32 (s.acc.toInt +
      (e0.toInt + e1.toInt + e2.toInt + e3.toInt + e4.toInt + e5.toInt + e6.toInt + e7.toInt)) = true) →
      exec .acc8 s = .next
        { s with
          acc := s.acc + (e0.signExtend 32 + e1.signExtend 32 + e2.signExtend 32 + e3.signExtend 32 +
            e4.signExtend 32 + e5.signExtend 32 + e6.signExtend 32 + e7.signExtend 32)
          idx := s.idx + 8#32 } ∧
      s.acc + (e0.signExtend 32 + e1.signExtend 32 + e2.signExtend 32 + e3.signExtend 32 +
          e4.signExtend 32 + e5.signExtend 32 + e6.signExtend 32 + e7.signExtend 32) =
        s.acc + (e0.signExtend 32 + e1.signExtend 32 + e2.signExtend 32 + e3.signExtend 32) +
          (e4.signExtend 32 + e5.signExtend 32 + e6.signExtend 32 + e7.signExtend 32) ∧
      s.acc + (e0.signExtend 32 + e1.signExtend 32 + e2.signExtend 32 + e3.signExtend 32 +
          e4.signExtend 32 + e5.signExtend 32 + e6.signExtend 32 + e7.signExtend 32) =
        s.acc + e0.signExtend 32 + e1.signExtend 32 + e2.signExtend 32 + e3.signExtend 32 +
          e4.signExtend 32 + e5.signExtend 32 + e6.signExtend 32 + e7.signExtend 32

/-- R124: VRED adds vl = min(REM, VLMAX) samples, each sign-extended on its own, and advances IDX by vl. -/
def Obligations.VredAddsVlSamples : Prop :=
  encode .vred = .uop 0x5#4 ∧
  ∀ (s : State) (es : List Sample), s.phase = .sum → 1 ≤ s.rem → s.cfg.strat = .vector →
    s.vecRead s.idx.toNat (min (s.len.toNat - s.idx.toNat) s.cfg.vlmax.val) = some es →
    (s.cfg.overflow = .wrap ∨ fits32 (s.acc.toInt + (es.map BitVec.toInt).sum) = true) →
      1 ≤ es.length ∧ es.length ≤ s.cfg.vlmax.val ∧
      exec .vred s = .next
        { s with
          acc := s.acc + (es.map (BitVec.signExtend 32)).sum
          idx := s.idx + BitVec.ofNat 32 (min (s.len.toNat - s.idx.toNat) s.cfg.vlmax.val) }

/-- U3 (93_implementation_defined.md), log 7: under OVERFLOW_POLICY = unconstrained a step whose exact result leaves
the 32-bit range still completes, advances IDX and changes nothing else but ACC, whose value is a free one: the
model's `Config.freeWord` at the model's own counter, which the step advances (log 18). -/
def Obligations.OpenOverflowIsFree : Prop :=
  ∀ (s : State) (i : Instr) (es : List Sample), issueOk i s = true →
    (i = .acc1 ∨ i = .acc4 ∨ i = .acc8 ∨ i = .vred) →
    s.vecRead s.idx.toNat (readCount s i) = some es → s.cfg.overflow = .unconstrained →
    (s.acc.toInt + (es.map BitVec.toInt).sum < -2147483648 ∨ 2147483647 < s.acc.toInt + (es.map BitVec.toInt).sum) →
      exec i s = .next
        { s with
          acc := Config.freeWord s.fresh
          idx := s.idx + BitVec.ofNat 32 (readCount s i)
          fresh := s.fresh + 1 }

/-- R68, R191: an accumulate word whose read the environment does not answer is stuck, whatever the strategy. -/
def Obligations.UnansweredReadIsStuck : Prop :=
  ∀ (s : State) (i : Instr), issueOk i s = true → (i = .acc1 ∨ i = .acc4 ∨ i = .acc8 ∨ i = .vred) →
    s.vecRead s.idx.toNat (readCount s i) = none → exec i s = .fault .unansweredRead

/-- R163: the one addition, on the accumulator: exact where the signed sum fits 32 bits, otherwise off by exactly
2^32 in the direction that brings it into range, and the same modulo 2^32 for the unsigned reading. -/
def Obligations.AccumulatorWrapsModulo : Prop :=
  ∀ (s : State) (e : Sample), s.cfg.overflow = .wrap →
    ((s.addSamples [e]).acc.toNat : Int) = (s.acc.toNat + e.toInt) % 4294967296 ∧
    (fits32 (s.acc.toInt + e.toInt) = true → (s.addSamples [e]).acc.toInt = s.acc.toInt + e.toInt) ∧
    (2147483647 < s.acc.toInt + e.toInt → (s.addSamples [e]).acc.toInt = s.acc.toInt + e.toInt - 4294967296) ∧
    (s.acc.toInt + e.toInt < -2147483648 → (s.addSamples [e]).acc.toInt = s.acc.toInt + e.toInt + 4294967296)

/-- R122, R123, R164: order and grouping do not matter: adding two groups one after the other is adding them as one,
and any reordering of the samples gives the same accumulator, the exact sum modulo 2^32. -/
def Obligations.OrderAndGroupingDoNotMatter : Prop :=
  (∀ (s : State) (es es' : List Sample), s.cfg.overflow = .wrap →
    (s.addSamples es).addSamples es' = s.addSamples (es ++ es')) ∧
  (∀ (s : State) (es es' : List Sample), s.cfg.overflow = .wrap → es.Perm es' → s.addSamples es = s.addSamples es') ∧
  (∀ es : List Sample, ((laneSum es).toNat : Int) = (es.map BitVec.toInt).sum % 4294967296)

/-- R53, R108, R110, R125: a word issued under its condition reads only elements below LEN, and an accumulate word
reads at least one. -/
def Obligations.ReadsStayInsideVector : Prop :=
  ∀ (s : State) (i : Instr), issueOk i s = true →
    (readCount s i ≠ 0 → s.idx.toNat + readCount s i ≤ s.len.toNat ∧ readCount s i ≤ laneCount s.cfg) ∧
    ((i = .acc1 ∨ i = .acc4 ∨ i = .acc8 ∨ i = .vred) → 1 ≤ readCount s i)

/-! ### The finishing family, NOP and START -/

/-- R140, R192: DIV. -/
def Obligations.DivTruncatesTowardZero : Prop :=
  encode .div = .uop 0x6#4 ∧
  ∀ s : State,
    (s.phase = .sum → s.idx = s.len → s.len = 0#32 → exec .div s = .fault .divideByZero) ∧
    (s.phase = .sum → s.idx = s.len → s.len ≠ 0#32 →
      ∃ q : Word, q.toInt = tdiv s.acc.toInt s.len.toNat ∧ exec .div s = .next { s with quo := q, phase := .divd }) ∧
    (¬(s.phase = .sum ∧ s.idx = s.len) → exec .div s = .refused .outOfPhaseWord)

/-- R141: FMT keeps the low half of QUO, which is its value whenever that fits 16 bits. -/
def Obligations.FmtKeepsLowHalf : Prop :=
  encode .fmt = .uop 0x7#4 ∧
  ∀ s : State,
    (s.phase = .divd →
      exec .fmt s = .next { s with res := BitVec.ofNat 16 s.quo.toNat, phase := .fmtd } ∧
      (-32768 ≤ s.quo.toInt → s.quo.toInt ≤ 32767 → (BitVec.ofNat 16 s.quo.toNat).toInt = s.quo.toInt)) ∧
    (s.phase ≠ .divd → exec .fmt s = .refused .outOfPhaseWord)

/-- R142: WR makes the one write, of RES to OUT, and ends the invocation. -/
def Obligations.WrWritesResult : Prop :=
  encode .wr = .uop 0x8#4 ∧
  ∀ s : State,
    (s.phase = .fmtd →
      ∃ t, exec .wr s = .next t ∧ t = { s with mem := t.mem, phase := .done } ∧ t.out = some s.res ∧
        t.busy = false ∧ t.finished = true ∧
        ∀ a, a ≠ s.handles.dst → a ≠ s.handles.dst + 1 → Memory.read t.mem a = Memory.read s.mem a) ∧
    (s.phase ≠ .fmtd → exec .wr s = .refused .outOfPhaseWord)

/-- R143: NOP. -/
def Obligations.NopChangesNothing : Prop :=
  encode .nop = .uop 0x0#4 ∧
  ∀ s : State,
    (s.phase = .idle ∨ s.phase = .done → exec .nop s = .next s) ∧
    (s.phase ≠ .idle → s.phase ≠ .done → exec .nop s = .refused .outOfPhaseWord)

/-- R101: START, accepted: as a command, and as the step in which the host presents it. -/
def Obligations.StartAccepted : Prop :=
  ∀ n : Word, encode (.start n) = .command (1#1 ++ n) ∧
  ∀ s : State, s.phase = .idle ∨ s.phase = .done →
    exec (.start n) s = .next { s with len := n, phase := .init } ∧
    (s.nextInput.rst = false → s.nextInput.start = true → s.nextInput.len = n →
      step s = .next { s.afterInput with len := n, phase := .init }) ∧
    ({ s with len := n, phase := .init } : State).busy = true ∧
    ({ s with len := n, phase := .init } : State).finished = false

/-- R102: START, not accepted: the command changes nothing, and the step is the one it would have been with no
command, whatever stands on the `len` port. -/
def Obligations.StartIntoBusyBlockDropped : Prop :=
  ∀ s : State, s.busy = true →
    (∀ n, exec (.start n) s = .next s) ∧
    (∀ (p : HostInput) (ps : List HostInput) (n : Word), s.inputs = p :: ps →
      step s = step { s with inputs := { p with start := false, len := n } :: ps })

/-! ### Frames -/

/-- R29, R125: what each instruction leaves unchanged when it answers a next state. Every register not named for the
instruction in the access table keeps its value; no instruction touches the build, the environment's handles or
byte order, or the pending inputs; `fresh` is the model's own counter (log 18). -/
def Obligations.RegisterFrame : Prop :=
  ∀ (i : Instr) (s t : State), exec i s = .next t →
    (i ≠ .clr → i ≠ .acc1 → i ≠ .acc4 → i ≠ .acc8 → i ≠ .vred → t.acc = s.acc ∧ t.idx = s.idx) ∧
    ((∀ n, i ≠ .start n) → t.len = s.len) ∧
    (i ≠ .div → t.quo = s.quo) ∧
    (i ≠ .fmt → t.res = s.res) ∧
    (i = .nop ∨ i = .acc1 ∨ i = .acc4 ∨ i = .acc8 ∨ i = .vred → t.phase = s.phase) ∧
    (i ≠ .acc1 → i ≠ .acc4 → i ≠ .acc8 → i ≠ .vred → t.fresh = s.fresh) ∧
    t.cfg = s.cfg ∧ t.order = s.order ∧ t.handles = s.handles ∧ t.inputs = s.inputs ∧ t.rdSpare = s.rdSpare

/-- R52, R54, R112: only WR writes memory, and it writes the two bytes of the slot at DST and no other. -/
def Obligations.MemoryFrame : Prop :=
  ∀ (i : Instr) (s t : State), exec i s = .next t →
    (i ≠ .wr → ∀ a, Memory.read t.mem a = Memory.read s.mem a) ∧
    (i = .wr → ∀ a, a ≠ s.handles.dst → a ≠ s.handles.dst + 1 → Memory.read t.mem a = Memory.read s.mem a)

/-- R7, R36, R223: no step, a reset among them, changes the static parameters or the byte order; and the environment
changes only by what the step's input says and by WR (log 3, log 6). -/
def Obligations.BuildNeverChanges : Prop :=
  ∀ s t : State, step s = .next t →
    t.cfg = s.cfg ∧ t.order = s.order ∧ t.handles = s.afterInput.handles ∧ t.inputs = s.inputs.tail ∧
    (s.phase ≠ .fmtd → t.mem = s.afterInput.mem)

/-! ### The two spaces -/

/-- R54, R56: OutWrite replaces the content of OUT by the pattern written, in the environment's byte order, keeps the
memory's canonical form and changes no byte outside the slot. -/
def Obligations.OutWriteReplacesSlot : Prop :=
  ∀ (s : State) (v : Sample),
    (s.outWrite v).out = some v ∧
    (s.order = .little → Memory.read (s.outWrite v).mem s.handles.dst = some (BitVec.ofNat 8 v.toNat) ∧
      Memory.read (s.outWrite v).mem (s.handles.dst + 1) = some (BitVec.ofNat 8 (v.toNat / 256))) ∧
    (s.order = .big → Memory.read (s.outWrite v).mem s.handles.dst = some (BitVec.ofNat 8 (v.toNat / 256)) ∧
      Memory.read (s.outWrite v).mem (s.handles.dst + 1) = some (BitVec.ofNat 8 v.toNat)) ∧
    (Memory.wf s.mem → Memory.wf (s.outWrite v).mem) ∧
    ∀ a, a ≠ s.handles.dst → a ≠ s.handles.dst + 1 → Memory.read (s.outWrite v).mem a = Memory.read s.mem a

/-- R56: element i of the vector is the 16-bit pattern at SRC + 2*i in the environment's byte order. -/
def Obligations.SampleByteMapping : Prop :=
  ∀ (s : State) (i : Nat) (b0 b1 : Byte),
    Memory.read s.mem (s.handles.src + 2 * i) = some b0 → Memory.read s.mem (s.handles.src + 2 * i + 1) = some b1 →
      ∃ e, s.sample i = some e ∧
        (s.order = .little → e.toNat = b0.toNat + 256 * b1.toNat) ∧
        (s.order = .big → e.toNat = 256 * b0.toNat + b1.toNat)

/-- R53: VecRead(i, n) returns IN[i] to IN[i+n-1], in that order, and is answered exactly when every one of them is. -/
def Obligations.VecReadReturnsElements : Prop :=
  ∀ (s : State) (i n : Nat) (es : List Sample),
    s.vecRead i n = some es ↔ es.length = n ∧ ∀ k < n, s.sample (i + k) = es[k]?

/-- R55: lane k of the packed beat, bits 16k+15 down to 16k, is the element of index i+k; cutting the beat at
multiples of 16 bits gives the elements back. -/
def Obligations.LaneOfBeatIsElement : Prop :=
  ∀ es : List Sample,
    (∀ k e, es[k]? = some e → (beat es).extractLsb' (16 * k) 16 = e) ∧ lanes (beat es) es.length = es

/-- R55, R81: the data port of 16*NL bits holds the elements of the read in its lowest lanes, and above them what the
environment drives there (log 22). While `rd_ack` = 1 its first `rd_n` lanes are the elements from IDX on. -/
def Obligations.DataPortLanes : Prop :=
  (∀ (s : State) (es : List Sample), es.length ≤ laneCount s.cfg →
    lanes (s.readBeat es) es.length = es ∧
    ∀ j, es.length + j < laneCount s.cfg →
      lane (s.readBeat es) (es.length + j) = BitVec.ofNat 16 (s.rdSpare / 2 ^ (16 * j))) ∧
  (∀ (p : HostInput) (s : State), rdAck p s = true →
    ∃ d n es, rdData p s = some d ∧ rdN p s = some n ∧ s.vecRead s.idx.toNat n = some es ∧ lanes d n = es)

/-- R81, U17: lanes of `rd_data` at and above the count requested are ignored: whatever stands there, every word does
the same and stops alike (log 22 for how the model holds those lanes). -/
def Obligations.UpperLanesIgnored : Prop :=
  ∀ (i : Instr) (s : State) (k : Nat),
    (∀ t, exec i s = .next t → exec i { s with rdSpare := k } = .next { t with rdSpare := k }) ∧
    (∀ f, exec i s = .fault f → exec i { s with rdSpare := k } = .fault f) ∧
    (∀ r, exec i s = .refused r → exec i { s with rdSpare := k } = .refused r)

/-! ### Arithmetic laws -/

/-- R165, R166: the accumulator is exact whenever the true sum fits 32 bits; up to 65536 samples it always fits, and
for no larger length is that so. -/
def Obligations.SafeLengthIsExact : Prop :=
  (∀ es : List Sample, fits32 (es.map BitVec.toInt).sum = true → (laneSum es).toInt = (es.map BitVec.toInt).sum) ∧
  (∀ es : List Sample, es.length ≤ 65536 → fits32 (es.map BitVec.toInt).sum = true) ∧
  (∀ n, 65536 < n → ∃ es : List Sample, es.length = n ∧ fits32 (es.map BitVec.toInt).sum = false)

/-- R167: tdiv(a, n) is the unique q with a = n*q + r, |r| < n, and r zero or of the sign of a. -/
def Obligations.TdivIsTheTruncatedQuotient : Prop :=
  ∀ (a q : Int) (n : Nat), 1 ≤ n →
    (q = tdiv a n ↔ ∃ r, a = n * q + r ∧ |r| < n ∧ (r = 0 ∨ (0 < r ∧ 0 < a) ∨ (r < 0 ∧ a < 0)))

/-- R168: the laws (a) to (f) of tdiv, with what (a) and (b) say of 32-bit patterns. -/
def Obligations.TdivLaws : Prop :=
  ∀ n : Nat, 1 ≤ n →
    (∀ a, |tdiv a n| ≤ |a|) ∧
    (∀ a, tdiv (-a) n = -tdiv a n) ∧
    (∀ a, tdiv a n = 0 ↔ |a| < n) ∧
    (∀ v, tdiv (n * v) n = v) ∧
    (∀ a b, a ≤ b → tdiv a n ≤ tdiv b n) ∧
    (∀ a, |a - n * tdiv a n| < n ∧ n * |tdiv a n| ≤ |a|) ∧
    (∀ a m : Word, m.toNat = n →
      (quotient a m).toInt = tdiv a.toInt n ∧ (a ≠ 0x80000000#32 → quotient (-a) m = -quotient a m))

/-- R169: narrowing keeps the value exactly when it fits 16 bits, and otherwise wraps by a multiple of 65536. -/
def Obligations.NarrowingWraps : Prop :=
  ∀ q : Word,
    ((narrow q).toInt = q.toInt ↔ -32768 ≤ q.toInt ∧ q.toInt ≤ 32767) ∧
    ∃ k : Int, (narrow q).toInt = q.toInt + 65536 * k

/-- R145: for a length 2^k the arithmetic shift with the bias is the truncated quotient; the plain shift differs from
it exactly when ACC is negative and the remainder is not zero. -/
def Obligations.BiasedShiftIsTheQuotient : Prop :=
  ∀ (a : Word) (k : Nat), k ≤ 31 →
    (shiftQuotient a k).toInt = tdiv a.toInt (2 ^ k) ∧
    ((a.sshiftRight k).toInt ≠ tdiv a.toInt (2 ^ k) ↔ a.toInt < 0 ∧ ¬ (2 ^ k : Int) ∣ a.toInt)

/-- R172, R173: a constant vector whose sum fits has that constant as its result, and so has a single sample. -/
def Obligations.ConstantVectorMean : Prop :=
  (∀ v : Sample, meanOut [v] = v) ∧
  (∀ (v : Sample) (n : Nat), 1 ≤ n → fits32 (n * v.toInt) = true → meanOut (List.replicate n v) = v) ∧
  (∀ (v : Sample) (n : Nat), n ≤ 65536 → fits32 (n * v.toInt) = true)

/-- R174: the result is 0 exactly when the accumulator is smaller in magnitude than the length, in particular
whenever the samples sum to zero. -/
def Obligations.ZeroResultIff : Prop :=
  ∀ es : List Sample, 1 ≤ es.length →
    (meanOut es = 0#16 ↔ |(meanAcc es).toInt| < es.length) ∧
    ((es.map BitVec.toInt).sum = 0 → meanOut es = 0#16)

/-- R176, R177: when the sum fits 32 bits the result lies between any bounds of the samples, never exceeds the exact
mean in magnitude, is zero or of its sign, differs from it by less than one unit, and is exact when the length divides
the sum. -/
def Obligations.ResultBoundsAndError : Prop :=
  ∀ es : List Sample, 1 ≤ es.length → fits32 (es.map BitVec.toInt).sum = true →
    (∀ lo hi : Int, (∀ e ∈ es, lo ≤ e.toInt ∧ e.toInt ≤ hi) → lo ≤ (meanOut es).toInt ∧ (meanOut es).toInt ≤ hi) ∧
    es.length * |(meanOut es).toInt| ≤ |(es.map BitVec.toInt).sum| ∧
    ((meanOut es).toInt = 0 ∨ (0 < (meanOut es).toInt ↔ 0 < (es.map BitVec.toInt).sum)) ∧
    |(es.map BitVec.toInt).sum - es.length * (meanOut es).toInt| < es.length ∧
    ((es.length : Int) ∣ (es.map BitVec.toInt).sum → es.length * (meanOut es).toInt = (es.map BitVec.toInt).sum)

/-! ### Status and reset -/

/-- R28, R36: busy and done are functions of PHASE, which is IDLE after reset. -/
def Obligations.StatusLevels : Prop :=
  ∀ s : State,
    (s.busy = true ↔ s.phase = .init ∨ s.phase = .sum ∨ s.phase = .divd ∨ s.phase = .fmtd) ∧
    (s.finished = true ↔ s.phase = .done) ∧
    State.reset.phase = .idle ∧ State.reset.busy = false ∧ State.reset.finished = false

/-- R220, R221: a step with `rst` = 1 leads to IDLE from every state, wins over `start`, makes no access, and leaves
the build as it was; memory keeps whatever stood in it. What the data registers hold afterwards is unspecified and
not stated (log 2). That the trace port shows no word in such a step is the model's reading, DEDUCED (log 16). -/
def Obligations.ResetWinsOverEverything : Prop :=
  ∀ s : State, s.nextInput.rst = true →
    runReads 1 s = [] ∧ runWrites 1 s = [] ∧ runUops 1 s = [] ∧
    ∃ t, step s = .next t ∧ t.phase = .idle ∧ t.busy = false ∧ t.finished = false ∧
      t.mem = s.afterInput.mem ∧ t.cfg = s.cfg ∧ t.inputs = s.inputs.tail

/-! ### Invariants -/

/-- R31(a), (c), (d), (e) and the headroom of R166 hold at reset, with memory in its canonical form. The register
values behind it are the model's (log 1), and no clause depends on them: PHASE = IDLE asks nothing of them. -/
def Obligations.InvariantAtReset : Prop :=
  State.reset.Inv ∧ State.reset.SumInv ∧ State.reset.QuietAhead

/-- R31: every step keeps the invariant: memory stays in its canonical form, IDX stays at most LEN and meets it at
DIV, QUO and RES stay what DIV and FMT made of ACC, and ACC stays within the headroom. -/
def Obligations.StepKeepsInvariant : Prop :=
  ∀ s t : State, s.Inv → step s = .next t → t.Inv

/-- R31(b): as long as no other agent touches the environment, every step keeps that ACC is the sum of the IDX samples
of the vector modulo 2^32. -/
def Obligations.StepKeepsSum : Prop :=
  ∀ s t : State, s.Inv → s.SumInv → s.QuietAhead → s.cfg.overflow = .wrap → step s = .next t →
    t.SumInv ∧ t.QuietAhead

/-- R171: wherever the invariant holds and DIV has run, the quotient fits 16 bits, and after FMT the result is the
quotient. -/
def Obligations.QuotientFitsSample : Prop :=
  ∀ s : State, s.Inv → s.phase.divided = true →
    (-32768 ≤ s.quo.toInt ∧ s.quo.toInt ≤ 32767) ∧ (s.phase.formatted = true → s.res.toInt = s.quo.toInt)

/-- R86, R87, R92: where the invariant holds no step is refused: the sequencer never issues a reserved or an
out-of-phase word. -/
def Obligations.NoStepIsRefused : Prop :=
  ∀ (s : State) (r : Refusal), s.Inv → step s ≠ .refused r

/-- R191, R192, R194, R196: the only causes of a fault, each exactly when it applies: DIV at LEN = 0, and an accumulate
step whose read is not answered. Overflow is none. -/
def Obligations.FaultCauses : Prop :=
  ∀ (s : State) (f : Fault),
    step s = .fault f ↔
      s.nextInput.rst = false ∧ s.phase = .sum ∧
        ((f = .divideByZero ∧ s.idx = s.len ∧ s.len = 0#32) ∨
         (f = .unansweredRead ∧ s.idx.toNat < s.len.toNat ∧ ¬ s.Answered))

/-- R109, R233: progress: a block that meets the invariant, whose read (if any) is answered and which is not about to
divide by zero takes its next step; and an accumulate step lowers REM. -/
def Obligations.Progress : Prop :=
  ∀ s : State, s.Inv → s.Answered → ¬ (s.phase = .sum ∧ s.len = 0#32) →
    ∃ t, step s = .next t ∧
      (s.nextInput.rst = false → s.phase = .sum → s.idx.toNat < s.len.toNat → t.phase = .sum ∧ t.rem < s.rem)

/-- R29, R32, R34, R111: no hidden state: two states that differ only in registers no later step reads before writing
them show the same ports and step to states of which the same holds, or stop alike; and whatever an earlier invocation
left in the five data registers is such a difference. -/
def Obligations.NoHiddenState : Prop :=
  (∀ s t : State, s.Agree t →
    OutcomeAgree (step s) (step t) ∧ s.busy = t.busy ∧ s.finished = t.finished ∧
    (∀ p : HostInput, uopPort p s = uopPort p t ∧ rdIdx p s = rdIdx p t ∧ rdN p s = rdN p t ∧
      wrEn p s = wrEn p t ∧ wrData p s = wrData p t)) ∧
  (∀ (s : State) (a l i q : Word) (r : Sample), s.phase = .idle ∨ s.phase = .done →
    s.Agree { s with acc := a, len := l, idx := i, quo := q, res := r })

/-! ### The ports -/

/-- R81, R142: the read port asks for 1 to NL elements from IDX on, inside the vector, in an accumulate step only; the
write port is enabled in the step WR only and carries RES. -/
def Obligations.PortsFollowTheStep : Prop :=
  ∀ (p : HostInput) (s : State),
    (wrEn p s = true ↔ p.rst = false ∧ s.phase = .fmtd) ∧
    (wrEn p s = true → wrData p s = some s.res) ∧
    (rdReq p s = true ↔ p.rst = false ∧ s.phase = .sum ∧ s.idx.toNat < s.len.toNat) ∧
    (rdReq p s = true → ∃ n, rdN p s = some n ∧ rdIdx p s = some s.idx ∧ 1 ≤ n ∧ n ≤ laneCount s.cfg ∧
      s.idx.toNat + n ≤ s.len.toNat)

/-! ### Whole invocations -/

/-- R100, R109, R112, R234: from IDLE or DONE, a START with a length of at least 1, in an environment that answers
every element and is left alone, runs to DONE in exactly the number of steps of the build, whatever is presented on
`start` and `len` meanwhile, with the registers and the one write of the contract and no other change of memory. The
slot may lie inside the vector (R69). Under OVERFLOW_POLICY = unconstrained it is claimed up to SAFE_LEN (U3). -/
def Obligations.InvocationComputesMean : Prop :=
  ∀ (s : State) (p : HostInput) (ps : List HostInput) (es : List Sample),
    s.phase = .idle ∨ s.phase = .done → s.inputs = p :: ps →
    p.rst = false → p.start = true → p.Quiet → (∀ q ∈ ps, q.Steady) →
    1 ≤ p.len.toNat → s.vecRead 0 p.len.toNat = some es →
    (s.cfg.overflow = .wrap ∨ p.len.toNat ≤ Config.safeLen) →
      runWrites (meanSteps s.cfg p.len.toNat + 1) s = [meanOut es] ∧
      ∃ t, runSteps (meanSteps s.cfg p.len.toNat + 1) s = .next t ∧
        t.phase = .done ∧ t.finished = true ∧
        t.acc = meanAcc es ∧ t.len = p.len ∧ t.idx = p.len ∧ t.quo = meanQuo es ∧ t.res = meanOut es ∧
        t.out = some (meanOut es) ∧
        ∀ a, a ≠ s.handles.dst → a ≠ s.handles.dst + 1 → Memory.read t.mem a = Memory.read s.mem a

/-- R170: the strategies are bit-identical: two instances of any builds, started on the same samples, end with the same
accumulator, index, quotient, result and output. -/
def Obligations.StrategiesBitIdentical : Prop :=
  ∀ (s s' : State) (p p' : HostInput) (ps ps' : List HostInput) (es : List Sample),
    s.phase = .idle ∨ s.phase = .done → s'.phase = .idle ∨ s'.phase = .done →
    s.inputs = p :: ps → s'.inputs = p' :: ps' →
    p.rst = false → p'.rst = false → p.start = true → p'.start = true → p.Quiet → p'.Quiet →
    (∀ q ∈ ps, q.Steady) → (∀ q ∈ ps', q.Steady) →
    p.len = p'.len → 1 ≤ p.len.toNat →
    s.vecRead 0 p.len.toNat = some es → s'.vecRead 0 p.len.toNat = some es →
    s.cfg.overflow = .wrap → s'.cfg.overflow = .wrap →
      ∃ t t', runSteps (meanSteps s.cfg p.len.toNat + 1) s = .next t ∧
        runSteps (meanSteps s'.cfg p.len.toNat + 1) s' = .next t' ∧
        t.phase = .done ∧ t'.phase = .done ∧
        t.acc = t'.acc ∧ t.idx = t'.idx ∧ t.quo = t'.quo ∧ t.res = t'.res ∧ t.out = t'.out

/-- R104, R105, R106, R107, R234: the trace port of such an invocation shows the word sequence of the build's strategy,
and the sequence has the length R234 gives. That the step START, which runs no word of format U, shows none is the
model's reading, DEDUCED (log 16). -/
def Obligations.TraceIsTheStrategySequence : Prop :=
  (∀ (c : Config.Params) (n : Nat), 1 ≤ n → (meanWords c n).length = meanSteps c n) ∧
  ∀ (s : State) (p : HostInput) (ps : List HostInput) (es : List Sample),
    s.phase = .idle ∨ s.phase = .done → s.inputs = p :: ps →
    p.rst = false → p.start = true → p.Quiet → (∀ q ∈ ps, q.Steady) →
    1 ≤ p.len.toNat → s.vecRead 0 p.len.toNat = some es →
      (runUops (meanSteps s.cfg p.len.toNat + 1) s).map CodeWord.uop = (meanWords s.cfg p.len.toNat).map encode

/-- R58, R61, R110: such an invocation reads every element of the vector exactly once, in increasing index order, and
no index at or above LEN. -/
def Obligations.EveryElementReadOnceInOrder : Prop :=
  ∀ (s : State) (p : HostInput) (ps : List HostInput) (es : List Sample),
    s.phase = .idle ∨ s.phase = .done → s.inputs = p :: ps →
    p.rst = false → p.start = true → p.Quiet → (∀ q ∈ ps, q.Steady) →
    1 ≤ p.len.toNat → s.vecRead 0 p.len.toNat = some es →
      runReads (meanSteps s.cfg p.len.toNat + 1) s = List.range p.len.toNat

/-- R51, R221, R226: between an accepted START and the step WR the block is busy and has written nothing, so OUT holds
its earlier content; a reset in that time therefore leaves it so. -/
def Obligations.OutKeptUntilWrite : Prop :=
  ∀ (s : State) (p : HostInput) (ps : List HostInput) (k : Nat) (t : State),
    s.phase = .idle ∨ s.phase = .done → s.inputs = p :: ps →
    p.rst = false → p.start = true → p.Quiet → (∀ q ∈ ps, q.Steady) →
    1 ≤ k → k ≤ meanSteps s.cfg p.len.toNat → runSteps k s = .next t →
      t.busy = true ∧ t.finished = false ∧ t.mem = s.mem ∧ runWrites k s = []

/-- R104, R192, R196: START with length 0 is accepted, and the third step faults at DIV, for every build and whatever the
environment answers, with no read and no write made. The trace shows CLR and DIV, the model's word sequence for length 0
(log 24; that the step START shows no word is log 16). -/
def Obligations.ZeroLengthFaultsAtDiv : Prop :=
  ∀ (s : State) (p : HostInput) (ps : List HostInput),
    s.phase = .idle ∨ s.phase = .done → s.inputs = p :: ps →
    p.rst = false → p.start = true → p.len = 0#32 → (∀ q ∈ ps, q.rst = false) →
      runSteps 3 s = .fault .divideByZero ∧ runReads 3 s = [] ∧ runWrites 3 s = [] ∧
      runUops 3 s = [0x1#4, 0x6#4] ∧ (meanWords s.cfg 0).map encode = [.uop 0x1#4, .uop 0x6#4] ∧
      ∃ t, runSteps 2 s = .next t ∧ t.phase = .sum ∧ t.len = 0#32
end

