-- ==== Sys2Proof/Laws/Arithmetic.lean ====
section
/-! SUPPORT. The small laws of the datapath's arithmetic: the two sums as library sums and over appended lists, the
ranges of the readings, and tdiv, for a divisor of at least 1, as the library's truncated division. -/

namespace Sys2Proof.Machine

theorem fits32_iff (k : Int) : fits32 k = true ↔ -2147483648 ≤ k ∧ k ≤ 2147483647 := by
  simp [fits32]

theorem exactSum_eq_sum (es : List Sample) : exactSum es = (es.map BitVec.toInt).sum := by
  induction es with
  | nil => rfl
  | cons e es ih => simp [exactSum, ih]

theorem laneSum_eq_sum (es : List Sample) : laneSum es = (es.map (BitVec.signExtend 32)).sum := by
  induction es with
  | nil => rfl
  | cons e es ih => simp [laneSum, sext32, ih]

theorem exactSum_append (es es' : List Sample) : exactSum (es ++ es') = exactSum es + exactSum es' := by
  simp [exactSum_eq_sum]

theorem laneSum_append (es es' : List Sample) : laneSum (es ++ es') = laneSum es + laneSum es' := by
  simp [laneSum_eq_sum]

/-- Widening keeps the integer value (R162). -/
theorem sext32_toInt (e : Sample) : (sext32 e).toInt = e.toInt := by
  unfold sext32
  rw [BitVec.toInt_signExtend_of_le (by decide)]

theorem sample_toInt_range (e : Sample) : -32768 ≤ e.toInt ∧ e.toInt ≤ 32767 := by
  have h1 := BitVec.toInt_lt (x := e)
  have h2 := BitVec.le_toInt (x := e)
  norm_num at *
  omega

theorem word_toInt_range (a : Word) : -2147483648 ≤ a.toInt ∧ a.toInt ≤ 2147483647 := by
  have h1 := BitVec.toInt_lt (x := a)
  have h2 := BitVec.le_toInt (x := a)
  norm_num at *
  omega

/-- `tdiv` where R10 defines it, for a divisor of at least 1. -/
theorem tdiv_of_pos (a : Int) {n : Nat} (h : 1 ≤ n) :
    tdiv a n = if 0 ≤ a then a / (n : Int) else -(-a / (n : Int)) := by
  rw [tdiv, if_neg (by omega)]

/-- There `tdiv` is the library's division truncated toward zero. -/
theorem tdiv_eq_int_tdiv (a : Int) {n : Nat} (h : 1 ≤ n) : tdiv a n = Int.tdiv a n := by
  rw [tdiv_of_pos a h]
  split
  case isTrue h => rw [Int.tdiv_eq_ediv_of_nonneg h]
  case isFalse h =>
    have := Int.tdiv_eq_ediv_of_nonneg (a := -a) (b := n) (by omega)
    rw [Int.neg_tdiv] at this
    omega

/-- `from_sint_32` of a number with a 32-bit pattern has that number as its signed reading (R10). -/
theorem fromSint32_toInt {k : Int} (h : fits32 k = true) : (fromSint32 k).toInt = k := by
  rw [fits32_iff] at h
  unfold fromSint32
  rw [BitVec.toInt_ofInt, Int.bmod_def]
  norm_num
  split <;> omega

end Sys2Proof.Machine
end

