-- ==== Sys2Proof/Laws/Memory.lean ====
section
/-! SUPPORT. The laws of the environment's memory: what a read sees after a write, that every operation keeps the
canonical form, and what a multi-element read depends on. -/

namespace Sys2Proof.Machine

/-! ### Reading what was written -/

@[simp] theorem Memory.read_nil (a : Nat) : Memory.read [] a = none := rfl

theorem Memory.read_write (m : Memory) (a x : Nat) (b : Byte) :
    Memory.read (Memory.write m a b) x = if x = a then some b else Memory.read m x := by
  induction m with
  | nil =>
    by_cases h : a = x
    · simp [Memory.write, Memory.read, h]
    · simp [Memory.write, Memory.read, h, Ne.symm h]
  | cons kc m ih =>
    obtain ⟨k, c⟩ := kc
    by_cases h1 : a < k
    · rw [Memory.write, if_pos h1]
      by_cases hx : a = x
      · simp [Memory.read, hx]
      · simp [Memory.read, hx, Ne.symm hx]
    · by_cases h2 : a = k
      · subst h2
        by_cases hx : a = x
        · simp [Memory.write, Memory.read, hx]
        · simp [Memory.write, Memory.read, hx, Ne.symm hx]
      · by_cases hk : k = x
        · subst hk
          simp [Memory.write, Memory.read, h1, h2, Ne.symm h2]
        · simp [Memory.write, Memory.read, h1, h2, hk, ih]

@[simp] theorem Memory.read_write_same (m : Memory) (a : Nat) (b : Byte) :
    Memory.read (Memory.write m a b) a = some b := by
  simp [Memory.read_write]

theorem Memory.read_write_other (m : Memory) {a x : Nat} (b : Byte) (h : x ≠ a) :
    Memory.read (Memory.write m a b) x = Memory.read m x := by
  simp [Memory.read_write, h]

/-- A 16-bit write changes the byte at its address and the next one, and no other. -/
theorem Memory.read_write16 (m : Memory) (order : Config.ByteOrder) (a x : Nat) (v : Sample) :
    Memory.read (Memory.write16 m order a v) x =
      if x = a + 1 then some (upperByte order v)
      else if x = a then some (lowerByte order v)
      else Memory.read m x := by
  simp [Memory.write16, Memory.read_write]

/-! ### The canonical form -/

/-- The addresses a write leaves in a memory: the one written and those already there. -/
theorem Memory.mem_write {m : Memory} {a : Nat} {b : Byte} {c : Host.Cell} (h : c ∈ Memory.write m a b) :
    c = (a, b) ∨ c ∈ m := by
  induction m with
  | nil => simpa [Memory.write] using h
  | cons kc m ih =>
    obtain ⟨k, d⟩ := kc
    simp only [Memory.write] at h
    split at h
    · simpa using h
    · split at h
      · rcases List.mem_cons.1 h with h | h
        · exact .inl h
        · exact .inr (List.mem_cons_of_mem _ h)
      · rcases List.mem_cons.1 h with h | h
        · exact .inr (h ▸ List.mem_cons_self)
        · exact (ih h).imp id (List.mem_cons_of_mem _)

theorem Memory.write_wf {m : Memory} (h : Memory.wf m) (a : Nat) (b : Byte) : Memory.wf (Memory.write m a b) := by
  induction m with
  | nil => simp [Memory.write]
  | cons kc m ih =>
    obtain ⟨k, d⟩ := kc
    obtain ⟨hk, hm⟩ := List.pairwise_cons.1 h
    simp only [Memory.write]
    split
    case isTrue hlt =>
      refine List.pairwise_cons.2 ⟨fun c hc => ?_, h⟩
      rcases List.mem_cons.1 hc with rfl | hc
      · exact hlt
      · exact Nat.lt_trans hlt (hk c hc)
    case isFalse hlt =>
      split
      case isTrue he => exact List.pairwise_cons.2 ⟨fun c hc => he ▸ hk c hc, hm⟩
      case isFalse he =>
        refine List.pairwise_cons.2 ⟨fun c hc => ?_, ih hm⟩
        rcases Memory.mem_write hc with rfl | hc
        · simp only; omega
        · exact hk c hc

theorem Memory.writeAll_wf {m : Memory} (h : Memory.wf m) (cs : List Host.Cell) : Memory.wf (Memory.writeAll m cs) := by
  induction cs generalizing m with
  | nil => exact h
  | cons c cs ih => exact ih (Memory.write_wf h c.1 c.2)

theorem Memory.write16_wf {m : Memory} (h : Memory.wf m) (order : Config.ByteOrder) (a : Nat) (v : Sample) :
    Memory.wf (Memory.write16 m order a v) :=
  Memory.write_wf (Memory.write_wf h _ _) _ _

theorem Memory.answerZeros_wf {m : Memory} (h : Memory.wf m) (a n : Nat) : Memory.wf (Memory.answerZeros m a n) := by
  induction n generalizing m a with
  | zero => exact h
  | succ n ih =>
    simp only [Memory.answerZeros]
    split
    · exact ih h _
    · exact ih (Memory.write_wf h _ _) _

theorem State.reset_mem_wf : Memory.wf State.reset.mem := List.Pairwise.nil

/-! ### Elements -/

/-- An element depends on its two bytes alone. -/
theorem Memory.read16_congr {m m' : Memory} {a : Nat} (order : Config.ByteOrder)
    (h0 : Memory.read m a = Memory.read m' a) (h1 : Memory.read m (a + 1) = Memory.read m' (a + 1)) :
    Memory.read16 m order a = Memory.read16 m' order a := by
  simp [Memory.read16, h0, h1]

/-- A multi-element read depends on its elements alone. -/
theorem State.vecRead_congr {s t : State} (n i : Nat)
    (h : ∀ k, i ≤ k → k < i + n → s.sample k = t.sample k) : s.vecRead i n = t.vecRead i n := by
  induction n generalizing i with
  | zero => rfl
  | succ n ih =>
    simp only [State.vecRead, h i (Nat.le_refl i) (by omega), ih (i + 1) (fun k hk hk' => h k (by omega) (by omega))]

/-- A read that is answered returns as many elements as were asked for. -/
theorem State.length_of_vecRead {s : State} {n i : Nat} {es : List Sample} (h : s.vecRead i n = some es) :
    es.length = n := by
  induction n generalizing i es with
  | zero => simp [State.vecRead] at h; simp [← h]
  | succ n ih =>
    simp only [State.vecRead] at h
    split at h
    case h_1 e tl he htl =>
      cases h
      simp [ih htl]
    case h_2 => cases h

end Sys2Proof.Machine
end

