-- ==== Sys2Proof/Laws/State.lean ====
section
/-! SUPPORT. One lemma per field of State per register write of Machine/Ops.lean, each true by unfolding, so that no
later proof unfolds a record update. -/

namespace Sys2Proof.Machine

/-! ### State.clear -/

@[simp] theorem State.clear_acc (s : State) :
    s.clear.acc = 0#32 := rfl
@[simp] theorem State.clear_len (s : State) :
    s.clear.len = s.len := rfl
@[simp] theorem State.clear_idx (s : State) :
    s.clear.idx = 0#32 := rfl
@[simp] theorem State.clear_quo (s : State) :
    s.clear.quo = s.quo := rfl
@[simp] theorem State.clear_res (s : State) :
    s.clear.res = s.res := rfl
@[simp] theorem State.clear_phase (s : State) :
    s.clear.phase = .sum := rfl
@[simp] theorem State.clear_cfg (s : State) :
    s.clear.cfg = s.cfg := rfl
@[simp] theorem State.clear_order (s : State) :
    s.clear.order = s.order := rfl
@[simp] theorem State.clear_handles (s : State) :
    s.clear.handles = s.handles := rfl
@[simp] theorem State.clear_mem (s : State) :
    s.clear.mem = s.mem := rfl
@[simp] theorem State.clear_rdSpare (s : State) :
    s.clear.rdSpare = s.rdSpare := rfl
@[simp] theorem State.clear_inputs (s : State) :
    s.clear.inputs = s.inputs := rfl
@[simp] theorem State.clear_fresh (s : State) :
    s.clear.fresh = s.fresh := rfl

/-! ### State.latchLen -/

@[simp] theorem State.latchLen_acc (s : State) (n : Word) :
    (s.latchLen n).acc = s.acc := rfl
@[simp] theorem State.latchLen_len (s : State) (n : Word) :
    (s.latchLen n).len = n := rfl
@[simp] theorem State.latchLen_idx (s : State) (n : Word) :
    (s.latchLen n).idx = s.idx := rfl
@[simp] theorem State.latchLen_quo (s : State) (n : Word) :
    (s.latchLen n).quo = s.quo := rfl
@[simp] theorem State.latchLen_res (s : State) (n : Word) :
    (s.latchLen n).res = s.res := rfl
@[simp] theorem State.latchLen_phase (s : State) (n : Word) :
    (s.latchLen n).phase = .init := rfl
@[simp] theorem State.latchLen_cfg (s : State) (n : Word) :
    (s.latchLen n).cfg = s.cfg := rfl
@[simp] theorem State.latchLen_order (s : State) (n : Word) :
    (s.latchLen n).order = s.order := rfl
@[simp] theorem State.latchLen_handles (s : State) (n : Word) :
    (s.latchLen n).handles = s.handles := rfl
@[simp] theorem State.latchLen_mem (s : State) (n : Word) :
    (s.latchLen n).mem = s.mem := rfl
@[simp] theorem State.latchLen_rdSpare (s : State) (n : Word) :
    (s.latchLen n).rdSpare = s.rdSpare := rfl
@[simp] theorem State.latchLen_inputs (s : State) (n : Word) :
    (s.latchLen n).inputs = s.inputs := rfl
@[simp] theorem State.latchLen_fresh (s : State) (n : Word) :
    (s.latchLen n).fresh = s.fresh := rfl

/-! ### State.addSamples -/

@[simp] theorem State.addSamples_acc (s : State) (es : List Sample) :
    (s.addSamples es).acc = s.nextAcc es := rfl
@[simp] theorem State.addSamples_len (s : State) (es : List Sample) :
    (s.addSamples es).len = s.len := rfl
@[simp] theorem State.addSamples_idx (s : State) (es : List Sample) :
    (s.addSamples es).idx = s.idx + BitVec.ofNat 32 es.length := rfl
@[simp] theorem State.addSamples_quo (s : State) (es : List Sample) :
    (s.addSamples es).quo = s.quo := rfl
@[simp] theorem State.addSamples_res (s : State) (es : List Sample) :
    (s.addSamples es).res = s.res := rfl
@[simp] theorem State.addSamples_phase (s : State) (es : List Sample) :
    (s.addSamples es).phase = s.phase := rfl
@[simp] theorem State.addSamples_cfg (s : State) (es : List Sample) :
    (s.addSamples es).cfg = s.cfg := rfl
@[simp] theorem State.addSamples_order (s : State) (es : List Sample) :
    (s.addSamples es).order = s.order := rfl
@[simp] theorem State.addSamples_handles (s : State) (es : List Sample) :
    (s.addSamples es).handles = s.handles := rfl
@[simp] theorem State.addSamples_mem (s : State) (es : List Sample) :
    (s.addSamples es).mem = s.mem := rfl
@[simp] theorem State.addSamples_rdSpare (s : State) (es : List Sample) :
    (s.addSamples es).rdSpare = s.rdSpare := rfl
@[simp] theorem State.addSamples_inputs (s : State) (es : List Sample) :
    (s.addSamples es).inputs = s.inputs := rfl
@[simp] theorem State.addSamples_fresh (s : State) (es : List Sample) :
    (s.addSamples es).fresh = s.nextFresh es := rfl

/-! ### State.latchQuotient -/

@[simp] theorem State.latchQuotient_acc (s : State) (q : Word) :
    (s.latchQuotient q).acc = s.acc := rfl
@[simp] theorem State.latchQuotient_len (s : State) (q : Word) :
    (s.latchQuotient q).len = s.len := rfl
@[simp] theorem State.latchQuotient_idx (s : State) (q : Word) :
    (s.latchQuotient q).idx = s.idx := rfl
@[simp] theorem State.latchQuotient_quo (s : State) (q : Word) :
    (s.latchQuotient q).quo = q := rfl
@[simp] theorem State.latchQuotient_res (s : State) (q : Word) :
    (s.latchQuotient q).res = s.res := rfl
@[simp] theorem State.latchQuotient_phase (s : State) (q : Word) :
    (s.latchQuotient q).phase = .divd := rfl
@[simp] theorem State.latchQuotient_cfg (s : State) (q : Word) :
    (s.latchQuotient q).cfg = s.cfg := rfl
@[simp] theorem State.latchQuotient_order (s : State) (q : Word) :
    (s.latchQuotient q).order = s.order := rfl
@[simp] theorem State.latchQuotient_handles (s : State) (q : Word) :
    (s.latchQuotient q).handles = s.handles := rfl
@[simp] theorem State.latchQuotient_mem (s : State) (q : Word) :
    (s.latchQuotient q).mem = s.mem := rfl
@[simp] theorem State.latchQuotient_rdSpare (s : State) (q : Word) :
    (s.latchQuotient q).rdSpare = s.rdSpare := rfl
@[simp] theorem State.latchQuotient_inputs (s : State) (q : Word) :
    (s.latchQuotient q).inputs = s.inputs := rfl
@[simp] theorem State.latchQuotient_fresh (s : State) (q : Word) :
    (s.latchQuotient q).fresh = s.fresh := rfl

/-! ### State.latchResult -/

@[simp] theorem State.latchResult_acc (s : State) (r : Sample) :
    (s.latchResult r).acc = s.acc := rfl
@[simp] theorem State.latchResult_len (s : State) (r : Sample) :
    (s.latchResult r).len = s.len := rfl
@[simp] theorem State.latchResult_idx (s : State) (r : Sample) :
    (s.latchResult r).idx = s.idx := rfl
@[simp] theorem State.latchResult_quo (s : State) (r : Sample) :
    (s.latchResult r).quo = s.quo := rfl
@[simp] theorem State.latchResult_res (s : State) (r : Sample) :
    (s.latchResult r).res = r := rfl
@[simp] theorem State.latchResult_phase (s : State) (r : Sample) :
    (s.latchResult r).phase = .fmtd := rfl
@[simp] theorem State.latchResult_cfg (s : State) (r : Sample) :
    (s.latchResult r).cfg = s.cfg := rfl
@[simp] theorem State.latchResult_order (s : State) (r : Sample) :
    (s.latchResult r).order = s.order := rfl
@[simp] theorem State.latchResult_handles (s : State) (r : Sample) :
    (s.latchResult r).handles = s.handles := rfl
@[simp] theorem State.latchResult_mem (s : State) (r : Sample) :
    (s.latchResult r).mem = s.mem := rfl
@[simp] theorem State.latchResult_rdSpare (s : State) (r : Sample) :
    (s.latchResult r).rdSpare = s.rdSpare := rfl
@[simp] theorem State.latchResult_inputs (s : State) (r : Sample) :
    (s.latchResult r).inputs = s.inputs := rfl
@[simp] theorem State.latchResult_fresh (s : State) (r : Sample) :
    (s.latchResult r).fresh = s.fresh := rfl

/-! ### State.outWrite -/

@[simp] theorem State.outWrite_acc (s : State) (v : Sample) :
    (s.outWrite v).acc = s.acc := rfl
@[simp] theorem State.outWrite_len (s : State) (v : Sample) :
    (s.outWrite v).len = s.len := rfl
@[simp] theorem State.outWrite_idx (s : State) (v : Sample) :
    (s.outWrite v).idx = s.idx := rfl
@[simp] theorem State.outWrite_quo (s : State) (v : Sample) :
    (s.outWrite v).quo = s.quo := rfl
@[simp] theorem State.outWrite_res (s : State) (v : Sample) :
    (s.outWrite v).res = s.res := rfl
@[simp] theorem State.outWrite_phase (s : State) (v : Sample) :
    (s.outWrite v).phase = s.phase := rfl
@[simp] theorem State.outWrite_cfg (s : State) (v : Sample) :
    (s.outWrite v).cfg = s.cfg := rfl
@[simp] theorem State.outWrite_order (s : State) (v : Sample) :
    (s.outWrite v).order = s.order := rfl
@[simp] theorem State.outWrite_handles (s : State) (v : Sample) :
    (s.outWrite v).handles = s.handles := rfl
@[simp] theorem State.outWrite_mem (s : State) (v : Sample) :
    (s.outWrite v).mem = Memory.write16 s.mem s.order s.handles.dst v := rfl
@[simp] theorem State.outWrite_rdSpare (s : State) (v : Sample) :
    (s.outWrite v).rdSpare = s.rdSpare := rfl
@[simp] theorem State.outWrite_inputs (s : State) (v : Sample) :
    (s.outWrite v).inputs = s.inputs := rfl
@[simp] theorem State.outWrite_fresh (s : State) (v : Sample) :
    (s.outWrite v).fresh = s.fresh := rfl

/-! ### State.finish -/

@[simp] theorem State.finish_acc (s : State) :
    s.finish.acc = s.acc := rfl
@[simp] theorem State.finish_len (s : State) :
    s.finish.len = s.len := rfl
@[simp] theorem State.finish_idx (s : State) :
    s.finish.idx = s.idx := rfl
@[simp] theorem State.finish_quo (s : State) :
    s.finish.quo = s.quo := rfl
@[simp] theorem State.finish_res (s : State) :
    s.finish.res = s.res := rfl
@[simp] theorem State.finish_phase (s : State) :
    s.finish.phase = .done := rfl
@[simp] theorem State.finish_cfg (s : State) :
    s.finish.cfg = s.cfg := rfl
@[simp] theorem State.finish_order (s : State) :
    s.finish.order = s.order := rfl
@[simp] theorem State.finish_handles (s : State) :
    s.finish.handles = s.handles := rfl
@[simp] theorem State.finish_mem (s : State) :
    s.finish.mem = Memory.write16 s.mem s.order s.handles.dst s.res := rfl
@[simp] theorem State.finish_rdSpare (s : State) :
    s.finish.rdSpare = s.rdSpare := rfl
@[simp] theorem State.finish_inputs (s : State) :
    s.finish.inputs = s.inputs := rfl
@[simp] theorem State.finish_fresh (s : State) :
    s.finish.fresh = s.fresh := rfl

/-! ### State.resetEvent -/

@[simp] theorem State.resetEvent_acc (s : State) :
    s.resetEvent.acc = Config.freeWord s.fresh := rfl
@[simp] theorem State.resetEvent_len (s : State) :
    s.resetEvent.len = Config.freeWord (s.fresh + 1) := rfl
@[simp] theorem State.resetEvent_idx (s : State) :
    s.resetEvent.idx = Config.freeWord (s.fresh + 2) := rfl
@[simp] theorem State.resetEvent_quo (s : State) :
    s.resetEvent.quo = Config.freeWord (s.fresh + 3) := rfl
@[simp] theorem State.resetEvent_res (s : State) :
    s.resetEvent.res = Config.freeSample s.fresh := rfl
@[simp] theorem State.resetEvent_phase (s : State) :
    s.resetEvent.phase = .idle := rfl
@[simp] theorem State.resetEvent_cfg (s : State) :
    s.resetEvent.cfg = s.cfg := rfl
@[simp] theorem State.resetEvent_order (s : State) :
    s.resetEvent.order = s.order := rfl
@[simp] theorem State.resetEvent_handles (s : State) :
    s.resetEvent.handles = s.handles := rfl
@[simp] theorem State.resetEvent_mem (s : State) :
    s.resetEvent.mem = s.mem := rfl
@[simp] theorem State.resetEvent_rdSpare (s : State) :
    s.resetEvent.rdSpare = s.rdSpare := rfl
@[simp] theorem State.resetEvent_inputs (s : State) :
    s.resetEvent.inputs = s.inputs := rfl
@[simp] theorem State.resetEvent_fresh (s : State) :
    s.resetEvent.fresh = s.fresh + 4 := rfl

/-! ### State.afterInput -/

@[simp] theorem State.afterInput_acc (s : State) :
    s.afterInput.acc = s.acc := rfl
@[simp] theorem State.afterInput_len (s : State) :
    s.afterInput.len = s.len := rfl
@[simp] theorem State.afterInput_idx (s : State) :
    s.afterInput.idx = s.idx := rfl
@[simp] theorem State.afterInput_quo (s : State) :
    s.afterInput.quo = s.quo := rfl
@[simp] theorem State.afterInput_res (s : State) :
    s.afterInput.res = s.res := rfl
@[simp] theorem State.afterInput_phase (s : State) :
    s.afterInput.phase = s.phase := rfl
@[simp] theorem State.afterInput_cfg (s : State) :
    s.afterInput.cfg = s.cfg := rfl
@[simp] theorem State.afterInput_order (s : State) :
    s.afterInput.order = s.order := rfl
@[simp] theorem State.afterInput_handles (s : State) :
    s.afterInput.handles = s.nextInput.rebind.getD s.handles := rfl
@[simp] theorem State.afterInput_mem (s : State) :
    s.afterInput.mem = Memory.writeAll s.mem s.nextInput.writes := rfl
@[simp] theorem State.afterInput_rdSpare (s : State) :
    s.afterInput.rdSpare = s.nextInput.rdSpare := rfl
@[simp] theorem State.afterInput_inputs (s : State) :
    s.afterInput.inputs = s.inputs.tail := rfl
@[simp] theorem State.afterInput_fresh (s : State) :
    s.afterInput.fresh = s.fresh := rfl

end Sys2Proof.Machine
end

