-- ==== Sys2Proof/Laws/Ops.lean ====
section
/-! SUPPORT. One lemma per shared operation that says everything it can do, for later proofs to cite instead of
unfolding it: the issue guard, the accumulate step, each meaning, and a whole step. -/

namespace Sys2Proof.Machine

/-! ### The issue guard -/

@[simp] theorem issueWhen_true (o : Host.Outcome State Fault Refusal) : issueWhen true o = o := rfl

@[simp] theorem issueWhen_false (o : Host.Outcome State Fault Refusal) :
    issueWhen false o = .refused .outOfPhaseWord := rfl

/-- A guarded word that answers a next state was issued under its condition. -/
theorem of_issueWhen_next {ok : Bool} {o : Host.Outcome State Fault Refusal} {t : State}
    (h : issueWhen ok o = .next t) : ok = true ∧ o = .next t := by
  cases ok with
  | true => exact ⟨rfl, h⟩
  | false => cases h

/-! ### The adder -/

/-- Where OVERFLOW_POLICY leaves nothing open the samples are added modulo 2^32 and no free value is drawn. -/
theorem State.nextAcc_of_not_open {s : State} {es : List Sample} (h : s.overflowOpen es = false) :
    s.nextAcc es = s.acc + laneSum es := by
  simp [State.nextAcc, h]

theorem State.nextFresh_of_not_open {s : State} {es : List Sample} (h : s.overflowOpen es = false) :
    s.nextFresh es = s.fresh := by
  simp [State.nextFresh, h]

theorem State.overflowOpen_of_wrap {s : State} (h : s.cfg.overflow = .wrap) (es : List Sample) :
    s.overflowOpen es = false := by
  simp [State.overflowOpen, h]

/-- An accumulate step that answers a next state read its elements and added the lanes of the data port. -/
theorem of_accumulate_next {n : Nat} {s t : State} (h : accumulate n s = .next t) :
    ∃ es, s.vecRead s.idx.toNat n = some es ∧ t = s.addSamples (lanes (s.readBeat es) n) := by
  unfold accumulate at h
  split at h
  case h_1 => cases h
  case h_2 es he => exact ⟨es, he, by cases h; rfl⟩

/-! ### The meanings -/

/-- What each instruction does when it answers a next state. -/
theorem of_exec_next {i : Instr} {s t : State} (h : exec i s = .next t) :
    (i = .nop ∧ s.canNop = true ∧ t = s) ∨
    (i = .clr ∧ s.canClr = true ∧ t = s.clear) ∨
    (∃ n es, ((i = .acc1 ∧ s.canAcc1 = true ∧ n = 1) ∨ (i = .acc4 ∧ s.canAcc4 = true ∧ n = 4) ∨
        (i = .acc8 ∧ s.canAcc8 = true ∧ n = 8) ∨ (i = .vred ∧ s.canVred = true ∧ n = s.vl)) ∧
      s.vecRead s.idx.toNat n = some es ∧ t = s.addSamples (lanes (s.readBeat es) n)) ∨
    (i = .div ∧ s.canDiv = true ∧ s.len ≠ 0#32 ∧ t = s.latchQuotient (quotient s.acc s.len)) ∨
    (i = .fmt ∧ s.canFmt = true ∧ t = s.latchResult (narrow s.quo)) ∨
    (i = .wr ∧ s.canWr = true ∧ t = s.finish) ∨
    (∃ n, i = .start n ∧ s.canStart = true ∧ t = s.latchLen n) ∨
    (∃ n, i = .start n ∧ s.canStart = false ∧ t = s) := by
  cases i with
  | nop => obtain ⟨hc, h⟩ := of_issueWhen_next h; cases h; exact .inl ⟨rfl, hc, rfl⟩
  | clr => obtain ⟨hc, h⟩ := of_issueWhen_next h; cases h; exact .inr (.inl ⟨rfl, hc, rfl⟩)
  | acc1 =>
    obtain ⟨hc, h⟩ := of_issueWhen_next h
    obtain ⟨es, he, ht⟩ := of_accumulate_next h
    exact .inr (.inr (.inl ⟨1, es, .inl ⟨rfl, hc, rfl⟩, he, ht⟩))
  | acc4 =>
    obtain ⟨hc, h⟩ := of_issueWhen_next h
    obtain ⟨es, he, ht⟩ := of_accumulate_next h
    exact .inr (.inr (.inl ⟨4, es, .inr (.inl ⟨rfl, hc, rfl⟩), he, ht⟩))
  | acc8 =>
    obtain ⟨hc, h⟩ := of_issueWhen_next h
    obtain ⟨es, he, ht⟩ := of_accumulate_next h
    exact .inr (.inr (.inl ⟨8, es, .inr (.inr (.inl ⟨rfl, hc, rfl⟩)), he, ht⟩))
  | vred =>
    obtain ⟨hc, h⟩ := of_issueWhen_next h
    obtain ⟨es, he, ht⟩ := of_accumulate_next h
    exact .inr (.inr (.inl ⟨s.vl, es, .inr (.inr (.inr ⟨rfl, hc, rfl⟩)), he, ht⟩))
  | div =>
    obtain ⟨hc, h⟩ := of_issueWhen_next h
    split at h
    case isTrue => cases h
    case isFalse hl => cases h; exact .inr (.inr (.inr (.inl ⟨rfl, hc, hl, rfl⟩)))
  | fmt => obtain ⟨hc, h⟩ := of_issueWhen_next h; cases h; exact .inr (.inr (.inr (.inr (.inl ⟨rfl, hc, rfl⟩))))
  | wr =>
    obtain ⟨hc, h⟩ := of_issueWhen_next h
    cases h
    exact .inr (.inr (.inr (.inr (.inr (.inl ⟨rfl, hc, rfl⟩)))))
  | start n =>
    simp only [exec, execStart] at h
    split at h
    case isTrue hc => cases h; exact .inr (.inr (.inr (.inr (.inr (.inr (.inl ⟨n, rfl, hc, rfl⟩))))))
    case isFalse hc =>
      cases h
      exact .inr (.inr (.inr (.inr (.inr (.inr (.inr ⟨n, rfl, by simpa using hc, rfl⟩))))))

/-! ### A whole step -/

/-- A word that decodes is executed as what it decodes to. -/
theorem runWord_of_decode {w : CodeWord} {i : Instr} (h : decode w = .ok i) (s : State) : runWord w s = exec i s := by
  cases w <;> simp only [decode] at h <;> simp only [runWord, h]

/-- A step that answers a next state was a reset, or executed a word that was issued. -/
theorem of_step_next {s t : State} (h : step s = .next t) :
    (s.nextInput.rst = true ∧ t = s.afterInput.resetEvent) ∨
    (s.nextInput.rst = false ∧ ∃ w, issuedWord s.nextInput s.afterInput = some w ∧ runWord w s.afterInput = .next t) := by
  simp only [step, stepWith] at h
  split at h
  case isTrue hr => cases h; exact .inl ⟨hr, rfl⟩
  case isFalse hr =>
    split at h
    case h_1 w hw => exact .inr ⟨by simpa using hr, w, hw, h⟩
    case h_2 => cases h

end Sys2Proof.Machine
end

