-- ==== Sys2Proof/Laws/PerInstr.lean ====
section
/-! SUPPORT. The per-instruction family TableRow: every instruction is encoded by a word of its own row of
spec/opcode_table.json, that is, the word agrees with the row's match on the row's mask. -/

namespace Sys2Proof.Laws.TableRow

/-- The bits of a word as a number. -/
def wordValue : CodeWord → Nat
  | .uop w => w.toNat
  | .command w => w.toNat

/-- The mask of the instruction's row. -/
def rowMask : Instr → Nat
  | .nop => 0xF
  | .clr => 0xF
  | .acc1 => 0xF
  | .acc4 => 0xF
  | .acc8 => 0xF
  | .vred => 0xF
  | .div => 0xF
  | .fmt => 0xF
  | .wr => 0xF
  | .start _ => 0x100000000

/-- The match of the instruction's row. -/
def rowMatch : Instr → Nat
  | .nop => 0x0
  | .clr => 0x1
  | .acc1 => 0x2
  | .acc4 => 0x3
  | .acc8 => 0x4
  | .vred => 0x5
  | .div => 0x6
  | .fmt => 0x7
  | .wr => 0x8
  | .start _ => 0x100000000

/-- The instruction's word is one of its row. -/
def Statement (i : Instr) : Prop := wordValue (encode i) &&& rowMask i = rowMatch i

theorem nop : Statement .nop := rfl
theorem clr : Statement .clr := rfl
theorem acc1 : Statement .acc1 := rfl
theorem acc4 : Statement .acc4 := rfl
theorem acc8 : Statement .acc8 := rfl
theorem vred : Statement .vred := rfl
theorem div : Statement .div := rfl
theorem fmt : Statement .fmt := rfl
theorem wr : Statement .wr := rfl

theorem start (len : Word) : Statement (.start len) := by
  have h := len.isLt
  have hv : wordValue (encode (.start len)) = 4294967296 + len.toNat := by
    simp only [wordValue, encode, BitVec.toNat_append, BitVec.toNat_ofNat]
    rw [← Nat.shiftLeft_add_eq_or_of_lt h]
    simp [Nat.shiftLeft_eq]
  show wordValue (encode (.start len)) &&& 2 ^ 32 = 2 ^ 32
  rw [hv, Nat.and_two_pow]
  have hb : (4294967296 + len.toNat).testBit 32 = true := by
    rw [show (4294967296 : Nat) = 2 ^ 32 from rfl, Nat.testBit_two_pow_add_eq]
    simp [Nat.testBit_lt_two_pow h]
  simp [hb]

end Sys2Proof.Laws.TableRow
end

