-- ==== Sys2Proof/Laws/Runs.lean ====
section
/-! SUPPORT. The laws of runs: a run of `a + b` steps is a run of `a` steps and then one of `b`, in its outcome and in
everything seen of it; and what a quiet environment leaves as it was. -/

namespace Sys2Proof.Machine

theorem runSteps_one {s t : State} (h : step s = .next t) : runSteps 1 s = .next t := by
  simp [runSteps, h]

theorem runSteps_add {a : Nat} {s t : State} (b : Nat) (h : runSteps a s = .next t) :
    runSteps (a + b) s = runSteps b t := by
  induction a generalizing s with
  | zero => cases h; simp
  | succ a ih =>
    rw [Nat.add_right_comm]
    simp only [runSteps] at h ⊢
    cases hs : step s with
    | next u => rw [hs] at h; exact ih h
    | fault f => rw [hs] at h; cases h
    | refused r => rw [hs] at h; cases h

theorem runUops_add {a : Nat} {s t : State} (b : Nat) (h : runSteps a s = .next t) :
    runUops (a + b) s = runUops a s ++ runUops b t := by
  induction a generalizing s with
  | zero => cases h; simp [runUops]
  | succ a ih =>
    rw [Nat.add_right_comm]
    simp only [runSteps, runUops] at h ⊢
    cases hs : step s with
    | next u => rw [hs] at h; simp [ih h]
    | fault f => rw [hs] at h; cases h
    | refused r => rw [hs] at h; cases h

theorem runReads_add {a : Nat} {s t : State} (b : Nat) (h : runSteps a s = .next t) :
    runReads (a + b) s = runReads a s ++ runReads b t := by
  induction a generalizing s with
  | zero => cases h; simp [runReads]
  | succ a ih =>
    rw [Nat.add_right_comm]
    simp only [runSteps, runReads] at h ⊢
    cases hs : step s with
    | next u => rw [hs] at h; simp [ih h]
    | fault f => rw [hs] at h; cases h
    | refused r => rw [hs] at h; cases h

theorem runWrites_add {a : Nat} {s t : State} (b : Nat) (h : runSteps a s = .next t) :
    runWrites (a + b) s = runWrites a s ++ runWrites b t := by
  induction a generalizing s with
  | zero => cases h; simp [runWrites]
  | succ a ih =>
    rw [Nat.add_right_comm]
    simp only [runSteps, runWrites] at h ⊢
    cases hs : step s with
    | next u => rw [hs] at h; simp [ih h]
    | fault f => rw [hs] at h; cases h
    | refused r => rw [hs] at h; cases h

/-- In a quiet step only the list of inputs and the lanes no read asks for change before the instruction executes. -/
theorem State.afterInput_of_quiet {s : State} (h : s.nextInput.Quiet) :
    s.afterInput = { s with rdSpare := s.nextInput.rdSpare, inputs := s.inputs.tail } := by
  simp [State.afterInput, h.1, h.2, Memory.writeAll]

/-- The next input of a state whose inputs are all steady is steady, and so are those after it. -/
theorem State.nextInput_steady {s : State} (h : ∀ p ∈ s.inputs, p.Steady) : s.nextInput.Steady := by
  unfold State.nextInput
  cases hi : s.inputs with
  | nil => exact ⟨rfl, rfl, rfl⟩
  | cons p ps => exact h p (by simp [hi])

theorem State.afterInput_steady {s : State} (h : ∀ p ∈ s.inputs, p.Steady) : ∀ p ∈ s.afterInput.inputs, p.Steady :=
  fun p hp => h p (List.mem_of_mem_tail hp)

end Sys2Proof.Machine
end

