-- ==== Sys2Proof/Laws/Sequencer.lean ====
section
/-! SUPPORT. The laws of the sequencer's choice in SUM: the five cases of the accumulate word, what one word leaves to
add, and the recursions of the step count and of the word sequence of an invocation. -/

namespace Sys2Proof.Machine

/-- The accumulate word of R103 and the number of samples it adds, by strategy. -/
theorem sumWord_cases (c : Config.Params) (r : Nat) :
    (c.strat = .scalar ∧ sumWord c r = .acc1 ∧ sumCount c r = 1) ∨
    (c.strat = .unroll ∧ c.group = .four ∧ 4 ≤ r ∧ sumWord c r = .acc4 ∧ sumCount c r = 4) ∨
    (c.strat = .unroll ∧ c.group = .eight ∧ 8 ≤ r ∧ sumWord c r = .acc8 ∧ sumCount c r = 8) ∨
    (c.strat = .unroll ∧ r < c.group.size ∧ sumWord c r = .acc1 ∧ sumCount c r = 1) ∨
    (c.strat = .vector ∧ sumWord c r = .vred ∧ sumCount c r = min r c.vlmax.val) := by
  cases hs : c.strat with
  | scalar => simp [sumWord, sumCount, hs]
  | vector => simp [sumWord, sumCount, hs]
  | unroll =>
    cases hg : c.group with
    | four =>
      by_cases h : 4 ≤ r
      · simp [sumWord, sumCount, hs, hg, h, Config.Group.size, groupWord]
      · simp [sumWord, sumCount, hs, hg, h, Config.Group.size]; omega
    | eight =>
      by_cases h : 8 ≤ r
      · simp [sumWord, sumCount, hs, hg, h, Config.Group.size, groupWord]
      · simp [sumWord, sumCount, hs, hg, h, Config.Group.size]; omega

/-- An accumulate word adds at least one sample and never more than are left. -/
theorem sumCount_bounds (c : Config.Params) {r : Nat} (h : 1 ≤ r) : 1 ≤ sumCount c r ∧ sumCount c r ≤ r := by
  have := c.vlmax.2
  rcases sumWord_cases c r with h | h | h | h | h <;> omega

theorem Config.Group.one_lt_size (g : Config.Group) : 1 < g.size := by
  cases g <;> decide

theorem div_eq_pred {r g : Nat} (hg : 1 ≤ g) (h : g ≤ r) : r / g = (r - g) / g + 1 := by
  rw [Nat.div_eq_sub_div (by omega) h]

@[simp] theorem sumSteps_zero (c : Config.Params) : sumSteps c 0 = 0 := by
  have := c.vlmax.2
  unfold sumSteps
  cases c.strat <;> simp
  omega

/-- One accumulate step, then the steps for what is left. -/
theorem sumSteps_rec (c : Config.Params) {r : Nat} (h : 1 ≤ r) :
    sumSteps c r = 1 + sumSteps c (r - sumCount c r) := by
  have hv := c.vlmax.2
  have hg := Config.Group.one_lt_size c.group
  unfold sumSteps sumCount
  cases c.strat with
  | scalar => simp only; omega
  | unroll =>
    simp only
    split
    case isTrue hr => rw [div_eq_pred (by omega) hr, ← Nat.mod_eq_sub_mod hr]; omega
    case isFalse hr =>
      rw [Nat.div_eq_of_lt (by omega), Nat.mod_eq_of_lt (by omega), Nat.div_eq_of_lt (by omega),
        Nat.mod_eq_of_lt (by omega)]
      omega
  | vector =>
    simp only
    by_cases hr : c.vlmax.val ≤ r
    · rw [Nat.min_eq_right hr, div_eq_pred (r := r + c.vlmax.val - 1) hv (by omega),
        show r + c.vlmax.val - 1 - c.vlmax.val = r - c.vlmax.val + c.vlmax.val - 1 by omega]
      omega
    · rw [Nat.min_eq_left (by omega), div_eq_pred (r := r + c.vlmax.val - 1) hv (by omega),
        Nat.div_eq_of_lt (by omega), Nat.div_eq_of_lt (by omega)]

@[simp] theorem sumWords_zero (c : Config.Params) : sumWords c 0 = [] := by
  unfold sumWords
  cases c.strat <;> simp

/-- The accumulate word of R103, then the words for what is left. -/
theorem sumWords_rec (c : Config.Params) {r : Nat} (h : 1 ≤ r) :
    sumWords c r = sumWord c r :: sumWords c (r - sumCount c r) := by
  obtain ⟨k, rfl⟩ : ∃ k, r = k + 1 := ⟨r - 1, by omega⟩
  have hv := c.vlmax.2
  have hg := Config.Group.one_lt_size c.group
  unfold sumWords sumCount sumWord
  cases c.strat with
  | scalar => simp [List.replicate_succ]
  | unroll =>
    simp only
    split
    case isTrue hr =>
      rw [div_eq_pred (by omega) hr, ← Nat.mod_eq_sub_mod hr, List.replicate_succ, List.cons_append]
    case isFalse hr =>
      rw [Nat.div_eq_of_lt (by omega), Nat.mod_eq_of_lt (by omega), Nat.div_eq_of_lt (by omega),
        Nat.mod_eq_of_lt (by omega)]
      simp [List.replicate_succ]
  | vector =>
    simp only
    by_cases hr : c.vlmax.val ≤ k + 1
    · rw [Nat.min_eq_right hr, div_eq_pred hv hr, ← Nat.mod_eq_sub_mod hr, List.replicate_succ, List.cons_append]
    · rw [Nat.min_eq_left (by omega), Nat.div_eq_of_lt (by omega), Nat.mod_eq_of_lt (by omega)]
      simp

/-- In SUM with samples left the sequencer issues the accumulate word. -/
theorem sequencer_sum {s : State} (hp : s.phase = .sum) (h : s.idx.toNat < s.len.toNat) :
    sequencer s = some (sumWord s.cfg s.rem) := by
  have hne : s.idx ≠ s.len := fun he => by rw [he] at h; omega
  simp [sequencer, hp, hne, h]

/-- In SUM with every sample added the sequencer issues DIV. -/
theorem sequencer_div {s : State} (hp : s.phase = .sum) (h : s.idx = s.len) : sequencer s = some .div := by
  simp [sequencer, hp, h]

/-- A busy block executes the sequencer's word whatever the host presents. -/
theorem issued_of_busy {s : State} (h : s.busy = true) (p : HostInput) : issued p s = sequencer s := by
  simp [issued, h]

end Sys2Proof.Machine
end

