-- ==== Sys2Proof/Machine/Listing.lean ====
section
/-! DEFINITION. The listing syntax of one step and of the pseudo-operation MEAN (spec/30_encoding.md R90, R93). -/

namespace Sys2Proof.Machine

/-- The mnemonic of an instruction, as spec/opcode_table.json has it (R84, R90). -/
def mnemonic : Instr → String
  | .nop => "NOP"
  | .clr => "CLR"
  | .acc1 => "ACC1"
  | .acc4 => "ACC4"
  | .acc8 => "ACC8"
  | .vred => "VRED"
  | .div => "DIV"
  | .fmt => "FMT"
  | .wr => "WR"
  | .start _ => "START"

/-- The line of a step: the mnemonic, START with its length in decimal, VRED with its vector length as a comment
(R90). -/
def listingLine (s : State) : Instr → String
  | .start n => "START len=" ++ toString n.toNat
  | .vred => "VRED ; vl=" ++ toString s.vl
  | .nop => mnemonic .nop
  | .clr => mnemonic .clr
  | .acc1 => mnemonic .acc1
  | .acc4 => mnemonic .acc4
  | .acc8 => mnemonic .acc8
  | .div => mnemonic .div
  | .fmt => mnemonic .fmt
  | .wr => mnemonic .wr

/-- The line of the pseudo-operation MEAN (R93). -/
def listingMean (n : Word) : String := "MEAN len=" ++ toString n.toNat

end Sys2Proof.Machine
end

