-- ==== Sys2Proof/Tests/Slice0.lean ====
section
/-! SUPPORT. Tests: the well-formedness smoke test, decoding of words written out from the spec's encodings, one-step
tests with values from spec/95_test_vectors.md, and for every obligation with hypotheses a state that meets them. -/

open Sys2Proof Sys2Proof.Machine

namespace Sys2Proof.Tests

/-! ### Helpers -/

/-- The next state satisfies a check. -/
def nextSat (o : Host.Outcome State Fault Refusal) (ok : State → Bool) : Bool :=
  match o with
  | .next t => ok t
  | .fault _ => false
  | .refused _ => false

/-- A next state exists where a check of it succeeds. -/
theorem exists_next {o : Host.Outcome State Fault Refusal} (h : nextSat o (fun _ => true) = true) :
    ∃ t, o = .next t := by
  cases o with
  | next t => exact ⟨t, rfl⟩
  | fault f => cases h
  | refused r => cases h

/-- The outcome is this fault. -/
def faultsWith (o : Host.Outcome State Fault Refusal) (f : Fault) : Bool :=
  match o with
  | .next _ => false
  | .fault g => decide (g = f)
  | .refused _ => false

/-- The outcome is this refusal. -/
def refusesWith (o : Host.Outcome State Fault Refusal) (r : Refusal) : Bool :=
  match o with
  | .next _ => false
  | .fault _ => false
  | .refused q => decide (q = r)

/-- Memory with these elements from byte address `a` on, little-endian. -/
def putVec (a : Nat) : List Sample → Memory → Memory
  | [], m => m
  | e :: es, m => putVec (a + 2) es (Memory.write16 m .little a e)

/-- A wrapping build. -/
def build (strat : Config.Strategy) (group : Config.Group) (vlmax : Config.VectorWidth) : Config.Params :=
  { strat := strat, group := group, vlmax := vlmax, overflow := .wrap }

def scalar : Config.Params := build .scalar .four ⟨4, by decide⟩
def unroll4 : Config.Params := build .unroll .four ⟨4, by decide⟩
def unroll8 : Config.Params := build .unroll .eight ⟨4, by decide⟩
def vector4 : Config.Params := build .vector .four ⟨4, by decide⟩
def openScalar : Config.Params := { scalar with overflow := .unconstrained }

/-- A state with the vector `es` at SRC and 0xBEEF in OUT, as in the programs of 95_test_vectors.md. -/
def scene (c : Config.Params) (phase : Phase) (acc len idx : Word) (es : List Sample) : State :=
  { State.reset with cfg := c, phase := phase, acc := acc, len := len, idx := idx, mem := putVec 0 (0xBEEF#16 :: es) [] }

/-- An input that holds `rst`. -/
def resetInput : HostInput := { HostInput.idle with rst := true }

/-! ### Well-formedness -/

theorem test_wf_refuses_odd_src : Config.Handles.wf { src := 3, dst := 0 } = false := by decide
theorem test_wf_refuses_odd_dst : Config.Handles.wf { src := 2, dst := 1 } = false := by decide
theorem test_wf_accepts_even_handles : Config.Handles.wf { src := 2, dst := 0 } = true := by decide
theorem test_wf_refuses_reserved_word : CodeWord.wf (.uop 0x9#4) = false := by decide
theorem test_wf_refuses_no_command : CodeWord.wf (.command 0x0FFFFFFFF#33) = false := by decide
theorem test_wf_accepts_every_length : Instr.wf (.start 0#32) = true ∧ Instr.wf (.start 0xFFFFFFFF#32) = true := by decide

/-! ### Decoding, words written out from 30_encoding.md R83, R84 -/

theorem test_decode_nop : decodeUop 0b0000#4 = .ok .nop := rfl
theorem test_decode_clr : decodeUop 0b0001#4 = .ok .clr := rfl
theorem test_decode_acc1 : decodeUop 0b0010#4 = .ok .acc1 := rfl
theorem test_decode_acc4 : decodeUop 0b0011#4 = .ok .acc4 := rfl
theorem test_decode_acc8 : decodeUop 0b0100#4 = .ok .acc8 := rfl
theorem test_decode_vred : decodeUop 0b0101#4 = .ok .vred := rfl
theorem test_decode_div : decodeUop 0b0110#4 = .ok .div := rfl
theorem test_decode_fmt : decodeUop 0b0111#4 = .ok .fmt := rfl
theorem test_decode_wr : decodeUop 0b1000#4 = .ok .wr := rfl
theorem test_decode_reserved : decodeUop 0b1001#4 = .error (.reserved 0b1001#4) ∧
    decodeUop 0b1111#4 = .error (.reserved 0b1111#4) := ⟨rfl, rfl⟩
/-- Bit 32 is `start`, bits 31 to 0 are `len` (R83). -/
theorem test_decode_start : decodeCommand 0b100000000000000000000000000000101#33 = .ok (.start 5#32) ∧
    decodeCommand 0b111111111111111111111111111111111#33 = .ok (.start 0xFFFFFFFF#32) ∧
    decodeCommand 0b000000000000000000000000000000101#33 = .error .noCommand := ⟨rfl, rfl, rfl⟩

/-- The ten rows as the table numbers their bits. -/
theorem test_decode_table_rows :
    decodeTableWord 4 0 = some .nop ∧ decodeTableWord 8 1 = some .clr ∧ decodeTableWord 8 2 = some .acc1 ∧
    decodeTableWord 8 3 = some .acc4 ∧ decodeTableWord 8 4 = some .acc8 ∧ decodeTableWord 8 5 = some .vred ∧
    decodeTableWord 8 6 = some .div ∧ decodeTableWord 8 7 = some .fmt ∧ decodeTableWord 8 8 = some .wr ∧
    decodeTableWord 33 0x100000000 = some (.start 0#32) ∧ decodeTableWord 40 0x100000007 = some (.start 7#32) ∧
    decodeTableWord 8 9 = none ∧ decodeTableWord 8 0x10 = none ∧ decodeTableWord 40 7 = none := by decide

/-- Each row placed from reset runs as the next step, and what it did shows that it was that instruction. -/
theorem test_placed_rows_run :
    nextSat (step (State.reset.withFetchWord 8 0)) (fun t => t.phase == .idle) = true ∧
    nextSat (step (State.reset.withFetchWord 8 1)) (fun t => t.phase == .sum && t.idx == 0#32) = true ∧
    nextSat (step (State.reset.withFetchWord 8 2)) (fun t => t.phase == .sum && t.idx == 1#32) = true ∧
    nextSat (step (State.reset.withFetchWord 8 3)) (fun t => t.idx == 4#32) = true ∧
    nextSat (step (State.reset.withFetchWord 8 4)) (fun t => t.idx == 8#32) = true ∧
    nextSat (step (State.reset.withFetchWord 8 5)) (fun t => t.idx == 1#32) = true ∧
    nextSat (step (State.reset.withFetchWord 8 6)) (fun t => t.phase == .divd) = true ∧
    nextSat (step (State.reset.withFetchWord 8 7)) (fun t => t.phase == .fmtd) = true ∧
    nextSat (step (State.reset.withFetchWord 8 8)) (fun t => t.phase == .done && t.out == some 0#16) = true ∧
    nextSat (step (State.reset.withFetchWord 40 0x100000007)) (fun t => t.phase == .init && t.len == 7#32) = true := by
  decide

/-! ### One step, values from 95_test_vectors.md -/

/-- 2.8: NOP in DONE changes nothing. -/
theorem test_nop_done : nextSat (exec .nop (scene scalar .done 15#32 5#32 5#32 []))
    (fun t => decide (t = scene scalar .done 15#32 5#32 5#32 [])) = true := by decide

/-- R87: NOP in SUM is refused. -/
theorem test_nop_refused_in_sum :
    refusesWith (exec .nop (scene scalar .sum 0#32 2#32 0#32 [])) .outOfPhaseWord = true := by decide

/-- 2.2, second row. -/
theorem test_clr : nextSat (exec .clr (scene scalar .init 0x7FFF8000#32 2#32 0x00010001#32 []))
    (fun t => t.acc == 0#32 && t.idx == 0#32 && t.phase == .sum && t.len == 2#32) = true := by decide

/-- 2.3: the S4 step, from the example of R121. -/
theorem test_acc1_negative : nextSat (exec .acc1 (scene scalar .sum 3#32 2#32 1#32 [0x0003#16, 0xFFFC#16]))
    (fun t => t.acc == 0xFFFFFFFF#32 && t.idx == 2#32 && t.phase == .sum) = true := by decide

/-- 2.3: negative overflow wraps. -/
theorem test_acc1_wraps : nextSat (exec .acc1 (scene scalar .sum 0x80000000#32 1#32 0#32 [0x8000#16]))
    (fun t => t.acc == 0x7FFF8000#32) = true := by decide

/-- 2.4: mixed signs, each lane sign-extended on its own. -/
theorem test_acc4_mixed_signs :
    nextSat (exec .acc4 (scene unroll4 .sum 0#32 4#32 0#32 [0x0001#16, 0xFFFE#16, 0x0003#16, 0xFFFC#16]))
      (fun t => t.acc == 0xFFFFFFFE#32 && t.idx == 4#32) = true := by decide

/-- 2.4: the beat of the same row. -/
theorem test_acc4_beat : (beat [0x0001#16, 0xFFFE#16, 0x0003#16, 0xFFFC#16]).toNat = 0xFFFC0003FFFE0001 := by decide

/-- 2.5: mixed signs, program P4. -/
theorem test_acc8_mixed_signs :
    nextSat (exec .acc8 (scene unroll8 .sum 0#32 9#32 0#32
        [0x0064#16, 0xFF38#16, 0x012C#16, 0xFE70#16, 0x01F4#16, 0xFDA8#16, 0x02BC#16, 0xFCE0#16]))
      (fun t => t.acc == 0xFFFFFE70#32 && t.idx == 8#32) = true := by decide

/-- R87: ACC8 is refused in a build of groups of four. -/
theorem test_acc8_refused_for_four :
    refusesWith (exec .acc8 (scene unroll4 .sum 0#32 8#32 0#32 [])) .outOfPhaseWord = true := by decide

/-- 2.6, second row: the short last step. -/
theorem test_vred_short_step :
    nextSat (exec .vred (scene vector4 .sum 0xFFFE0000#32 6#32 4#32
        [0x8000#16, 0x8000#16, 0x8000#16, 0x8000#16, 0x8000#16, 0x8000#16]))
      (fun t => t.acc == 0xFFFD0000#32 && t.idx == 6#32) = true := by decide

/-- 2.6, first row: a full step. -/
theorem test_vred_full_step :
    nextSat (exec .vred (scene vector4 .sum 0#32 6#32 0#32 [0x8000#16, 0x8000#16, 0x8000#16, 0x8000#16]))
      (fun t => t.acc == 0xFFFE0000#32 && t.idx == 4#32) = true := by decide

/-- R81, U17: the lanes above vl of the short last step are ignored, whatever stands there; and they are on the port. -/
theorem test_vred_upper_lanes :
    let s := { scene vector4 .sum 0xFFFE0000#32 6#32 4#32
        [0x8000#16, 0x8000#16, 0x8000#16, 0x8000#16, 0x8000#16, 0x8000#16] with rdSpare := 0x7FFF1234 }
    nextSat (exec .vred s) (fun t => t.acc == 0xFFFD0000#32 && t.idx == 6#32) = true ∧
    (s.readBeat [0x8000#16, 0x8000#16]).toNat = 0x7FFF123480008000 := by decide

/-- R83, R88: a format H word with `start` = 0 is no command, in a busy block too, and is not refused as reserved. -/
theorem test_no_command :
    nextSat (runWord (.command 0x000000007#33) (scene scalar .sum 3#32 2#32 1#32 []))
      (fun t => decide (t = scene scalar .sum 3#32 2#32 1#32 [])) = true ∧
    refusesWith (runWord (.uop 0x9#4) (scene scalar .sum 3#32 2#32 1#32 [])) .reservedWord = true := by decide

/-- 2.7: toward zero, and the divisor read as unsigned. -/
theorem test_div_values :
    quotient 0xFFFFFFFF#32 2#32 = 0#32 ∧ quotient 0xFFFFFFF9#32 2#32 = 0xFFFFFFFD#32 ∧
    quotient 0xFFFFFFEB#32 4#32 = 0xFFFFFFFB#32 ∧ quotient 0x80000000#32 1#32 = 0x80000000#32 ∧
    quotient 0x80000000#32 3#32 = 0xD5555556#32 ∧ quotient 0x80000000#32 0x00010000#32 = 0xFFFF8000#32 ∧
    quotient 0x80000000#32 0x80000000#32 = 0xFFFFFFFF#32 ∧ quotient 0x80000000#32 0xFFFFFFFF#32 = 0#32 ∧
    quotient 0x7FFFFFFF#32 0x80000000#32 = 0#32 := by decide

/-- 2.7, first row, and the last: 0/0 is not 0. -/
theorem test_div_step :
    nextSat (exec .div (scene scalar .sum 0xFFFFFFFF#32 2#32 2#32 []))
      (fun t => t.quo == 0#32 && t.phase == .divd && t.acc == 0xFFFFFFFF#32) = true ∧
    faultsWith (exec .div (scene scalar .sum 0#32 0#32 0#32 [])) .divideByZero = true := by decide

/-- 2.8: the narrowing keeps the low half and does not saturate. -/
theorem test_fmt_values :
    narrow 0xFFFFFFFB#32 = 0xFFFB#16 ∧ narrow 0x00008000#32 = 0x8000#16 ∧ narrow 0xFFFF7FFF#32 = 0x7FFF#16 ∧
    narrow 0x00010000#32 = 0x0000#16 ∧ narrow 0x12345678#32 = 0x5678#16 ∧ narrow 0xFFFEFFFF#32 = 0xFFFF#16 := by decide

/-- 2.8: the step FMT. -/
theorem test_fmt_step :
    nextSat (exec .fmt { scene scalar .divd 0#32 5#32 5#32 [] with quo := 0x00001234#32 })
      (fun t => t.res == 0x1234#16 && t.phase == .fmtd && t.quo == 0x00001234#32) = true := by decide

/-- 2.8: the one write, with `done` in the same step. -/
theorem test_wr_step :
    nextSat (exec .wr { scene scalar .fmtd 0#32 5#32 5#32 [0x0001#16] with res := 0x0003#16 })
      (fun t => t.out == some 0x0003#16 && t.phase == .done && !t.busy && t.finished &&
        t.sample 0 == some 0x0001#16) = true := by decide

/-- R56: the write in a big-endian environment puts bits 15 to 8 at the lower address. -/
theorem test_wr_big_endian :
    nextSat (exec .wr { scene scalar .fmtd 0#32 5#32 5#32 [] with res := 0x1234#16, order := .big })
      (fun t => Memory.read t.mem 0 == some 0x12#8 && Memory.read t.mem 1 == some 0x34#8) = true := by decide

/-- 2.1: accepted in DONE. -/
theorem test_start_accepted :
    nextSat (step { scene scalar .done 15#32 2#32 2#32 [] with inputs := [HostInput.startCmd 5#32] })
      (fun t => t.phase == .init && t.len == 5#32 && t.acc == 15#32 && t.busy && !t.finished) = true := by decide

/-- P7: dropped in SUM, where the step executes ACC1. -/
theorem test_start_dropped :
    nextSat (step { scene scalar .sum 3#32 2#32 1#32 [0x0003#16, 0xFFFC#16] with inputs := [HostInput.startCmd 7#32] })
      (fun t => t.phase == .sum && t.len == 2#32 && t.idx == 2#32 && t.acc == 0xFFFFFFFF#32) = true := by decide

/-- 2.9: rows of whole invocations, by the contract R100. -/
theorem test_mean_values :
    meanOut [0x0003#16, 0xFFFC#16] = 0x0000#16 ∧ meanOut [0xFFFD#16, 0xFFFC#16] = 0xFFFD#16 ∧
    meanOut [0x0007#16, 0xFFF9#16] = 0x0000#16 ∧ meanOut [0x8000#16] = 0x8000#16 ∧
    meanOut [0x8000#16, 0x8000#16, 0x8001#16] = 0x8001#16 ∧
    meanOut [0x0001#16, 0x0001#16, 0x0001#16, 0x0001#16, 0x000B#16] = 0x0003#16 ∧
    meanOut [0xFFFB#16, 0xFFFB#16, 0xFFFB#16, 0xFFFA#16] = 0xFFFB#16 := by decide

/-- Programs P1, P2, P3, P4: the word sequences. -/
theorem test_word_sequences :
    meanWords scalar 2 = [.clr, .acc1, .acc1, .div, .fmt, .wr] ∧
    meanWords unroll4 5 = [.clr, .acc4, .acc1, .div, .fmt, .wr] ∧
    meanWords vector4 6 = [.clr, .vred, .vred, .div, .fmt, .wr] ∧
    meanWords unroll8 9 = [.clr, .acc8, .acc1, .div, .fmt, .wr] := by decide

/-- Program P5 and R104: the word sequence of length 0, for every strategy. -/
theorem test_word_sequence_zero :
    meanWords scalar 0 = [.clr, .div] ∧ meanWords unroll8 0 = [.clr, .div] ∧ meanWords vector4 0 = [.clr, .div] := by
  decide

/-- 2.12: the shift identity. -/
theorem test_shift_identity :
    shiftQuotient 0xFFFFFFF9#32 1 = 0xFFFFFFFD#32 ∧ shiftQuotient 0xFFFFFFEB#32 2 = 0xFFFFFFFB#32 ∧
    shiftQuotient 0x80000000#32 31 = 0xFFFFFFFF#32 ∧ shiftQuotient 0xFFFFFFFF#32 31 = 0#32 := by decide

/-- R90: the listing of a START and of a VRED. -/
theorem test_listing :
    listingLine State.reset (.start 5#32) = "START len=5" ∧
    listingLine (scene vector4 .sum 0#32 6#32 0#32 []) .vred = "VRED ; vl=4" := ⟨rfl, rfl⟩

/-- R68: a read of an element the environment does not answer is stuck. -/
theorem test_unanswered_read :
    faultsWith (exec .acc1 (scene scalar .sum 0#32 1#32 0#32 [])) .unansweredRead = true := by decide

/-- R220: reset wins over a START in the same step, and leaves a busy block in IDLE. -/
theorem test_reset_wins :
    nextSat (step { scene scalar .sum 3#32 2#32 1#32 [0x0003#16] with
        inputs := [{ HostInput.startCmd 7#32 with rst := true }] })
      (fun t => t.phase == .idle && t.out == some 0xBEEF#16) = true := by decide

/-! ### Witnesses: for each obligation with hypotheses, a state and operands that meet them, clause by clause -/

/-- The start of program P1, with a second START presented to the busy block as in P7. -/
def p1 : State :=
  { scene scalar .idle 0#32 0#32 0#32 [0x0003#16, 0xFFFC#16] with
    inputs := [HostInput.startCmd 2#32, HostInput.startCmd 7#32] }

/-- The same vector for a VECTOR build, from DONE, as in program P3. -/
def p1Vector : State :=
  { scene vector4 .done 15#32 5#32 5#32 [0x0003#16, 0xFFFC#16] with inputs := [HostInput.startCmd 2#32] }

/-- P1 at step 3, SUM with IDX = 1. -/
def p1Sum : State := scene scalar .sum 3#32 2#32 1#32 [0x0003#16, 0xFFFC#16]

/-- P1 before WR, after DIV and FMT. -/
def p1Fmtd : State := scene scalar .fmtd 0xFFFFFFFF#32 2#32 2#32 [0x0003#16, 0xFFFC#16]

/-- What the statements about whole invocations assume of P1. -/
theorem test_witness_p1 :
    (p1.phase = .idle ∨ p1.phase = .done) ∧ p1.inputs = HostInput.startCmd 2#32 :: [HostInput.startCmd 7#32] ∧
    (HostInput.startCmd 2#32).rst = false ∧ (HostInput.startCmd 2#32).start = true ∧
    (HostInput.startCmd 2#32).Quiet ∧ (∀ q ∈ [HostInput.startCmd 7#32], q.Steady) ∧
    1 ≤ (HostInput.startCmd 2#32).len.toNat ∧
    p1.vecRead 0 (HostInput.startCmd 2#32).len.toNat = some [0x0003#16, 0xFFFC#16] ∧ p1.cfg.overflow = .wrap := by
  refine ⟨.inl rfl, rfl, rfl, rfl, ⟨rfl, rfl⟩, ?_, by decide, by decide, rfl⟩
  intro q hq
  rw [List.mem_singleton] at hq
  subst hq
  exact ⟨rfl, rfl, rfl⟩

/-- DecodeOfEncode, at the greatest operand. -/
theorem test_witness_decodeOfEncode : Instr.wf (.start 0xFFFFFFFF#32) = true := rfl

/-- EncodeOfDecode: a word that decodes, the least and the greatest reserved word, and a word that is no command. -/
theorem test_witness_encodeOfDecode :
    decode (.uop 0x8#4) = .ok .wr ∧ 9 ≤ (0x9#4 : Uop).toNat ∧ 9 ≤ (0xF#4 : Uop).toNat ∧
    (0x0FFFFFFFF#33 : Command).getLsbD 32 = false := by decide

/-- UopDecodeTable: the least reserved word and the greatest, and a word with its instruction. -/
theorem test_witness_uopDecodeTable :
    9 ≤ (0x9#4 : Uop).toNat ∧ 9 ≤ (0xF#4 : Uop).toNat ∧ encode .wr = .uop 0x8#4 := by decide

/-- NextWordTable: SUM at REM = 0, REM = 1, REM = G and REM = G - 1, for every strategy. -/
theorem test_witness_nextWordTable :
    (let s := scene scalar .sum 0#32 2#32 2#32 []; s.phase = .sum ∧ s.idx = s.len) ∧
    (p1Sum.phase = .sum ∧ p1Sum.idx.toNat < p1Sum.len.toNat ∧ p1Sum.cfg.strat = .scalar) ∧
    (let s := scene unroll4 .sum 0#32 4#32 0#32 []
     s.idx.toNat < s.len.toNat ∧ s.cfg.strat = .unroll ∧ s.cfg.group = .four ∧ 4 ≤ s.rem) ∧
    (let s := scene unroll8 .sum 0#32 8#32 0#32 []
     s.idx.toNat < s.len.toNat ∧ s.cfg.strat = .unroll ∧ s.cfg.group = .eight ∧ 8 ≤ s.rem) ∧
    (let s := scene unroll8 .sum 0#32 7#32 0#32 []
     s.idx.toNat < s.len.toNat ∧ s.cfg.strat = .unroll ∧ s.rem < s.cfg.group.size) ∧
    (let s := scene vector4 .sum 0#32 1#32 0#32 []; s.idx.toNat < s.len.toNat ∧ s.cfg.strat = .vector) ∧
    (p1.nextInput.rst = false ∧ p1.nextInput.start = true ∧ p1.busy = false) ∧
    (p1Sum.nextInput.rst = false ∧ p1Sum.nextInput.start = false ∧ sequencer p1Sum = some .acc1) ∧
    (let s := { p1Sum with inputs := [HostInput.startCmd 7#32] }; s.nextInput.rst = false ∧ s.busy = true) := by decide

/-- StepRunsDecodedWord: a format U word and a format H word. -/
theorem test_witness_stepRunsDecodedWord :
    (p1Sum.nextInput.rst = false ∧ issuedWord p1Sum.nextInput p1Sum.afterInput = some (.uop 0x2#4) ∧
      decode (.uop 0x2#4) = .ok .acc1) ∧
    (p1.nextInput.rst = false ∧ issuedWord p1.nextInput p1.afterInput = some (.command 0x100000002#33) ∧
      decode (.command 0x100000002#33) = .ok (.start 2#32)) := by decide

/-- IssueConditionIsSequencerChoice: a word that is no START, under its condition and outside it. -/
theorem test_witness_issueCondition :
    (∀ n, Instr.acc1 ≠ .start n) ∧ issueOk .acc1 p1Sum = true ∧ (∀ n, Instr.div ≠ .start n) ∧
    issueOk .div p1Sum = false := by
  refine ⟨?_, by decide, ?_, by decide⟩ <;> intro n h <;> cases h

/-- OnlyTheSequencersWordRuns: the reserved word 0x9 and the defined word 0x8, which the sequencer does not choose. -/
theorem test_witness_onlyTheSequencersWordRuns :
    (∀ i, sequencer p1Sum = some i → encode i ≠ .uop 0x9#4) ∧ (∀ i, sequencer p1Sum = some i → encode i ≠ .uop 0x8#4) ∧
    9 ≤ (0x9#4 : Uop).toNat ∧ (0x8#4 : Uop).toNat ≤ 8 := by
  have h : sequencer p1Sum = some .acc1 := by decide
  refine ⟨?_, ?_, by decide, by decide⟩ <;> intro i hi <;> rw [h] at hi <;> cases hi <;> decide

/-- ClrClearsAccumulator: both sides of its condition. -/
theorem test_witness_clr : (scene scalar .init 0#32 2#32 0#32 []).phase = .init ∧ p1Sum.phase ≠ .init := by decide

/-- Acc1AddsOneSample: SCALAR at REM = 1, UNROLL at REM = G - 1; wrapping, and open with a sum that fits. -/
theorem test_witness_acc1 :
    (p1Sum.phase = .sum ∧ 1 ≤ p1Sum.rem ∧ p1Sum.cfg.strat = .scalar ∧
      p1Sum.vecRead p1Sum.idx.toNat 1 = some [0xFFFC#16] ∧ p1Sum.cfg.overflow = .wrap) ∧
    (let s := scene unroll4 .sum 0#32 3#32 0#32 [0x8000#16]
     s.phase = .sum ∧ 1 ≤ s.rem ∧ s.cfg.strat = .unroll ∧ s.rem < s.cfg.group.size ∧
      s.vecRead s.idx.toNat 1 = some [0x8000#16] ∧ s.cfg.overflow = .wrap) ∧
    (let s := scene openScalar .sum 0x7FFFFFFE#32 1#32 0#32 [0x0001#16]
     s.phase = .sum ∧ 1 ≤ s.rem ∧ s.cfg.strat = .scalar ∧ s.vecRead s.idx.toNat 1 = some [0x0001#16] ∧
      -2147483648 ≤ s.acc.toInt + (0x0001#16).toInt ∧ s.acc.toInt + (0x0001#16).toInt ≤ 2147483647) := by decide

/-- Acc4AddsFourLanes at REM = 4. -/
theorem test_witness_acc4 :
    let s := scene unroll4 .sum 0#32 4#32 0#32 [0x0001#16, 0xFFFE#16, 0x0003#16, 0xFFFC#16]
    s.phase = .sum ∧ 4 ≤ s.rem ∧ s.cfg.strat = .unroll ∧ s.cfg.group = .four ∧
      s.vecRead s.idx.toNat 4 = some [0x0001#16, 0xFFFE#16, 0x0003#16, 0xFFFC#16] ∧ s.cfg.overflow = .wrap := by decide

/-- Acc8AddsEightLanes at REM = 8. -/
theorem test_witness_acc8 :
    let es := [0x0064#16, 0xFF38#16, 0x012C#16, 0xFE70#16, 0x01F4#16, 0xFDA8#16, 0x02BC#16, 0xFCE0#16]
    let s := scene unroll8 .sum 0#32 8#32 0#32 es
    s.phase = .sum ∧ 8 ≤ s.rem ∧ s.cfg.strat = .unroll ∧ s.cfg.group = .eight ∧
      s.vecRead s.idx.toNat 8 = some es ∧ s.cfg.overflow = .wrap := by decide

/-- VredAddsVlSamples at REM below VLMAX. -/
theorem test_witness_vred :
    let s := scene vector4 .sum 0#32 2#32 0#32 [0x8000#16, 0x8000#16]
    s.phase = .sum ∧ 1 ≤ s.rem ∧ s.cfg.strat = .vector ∧
      s.vecRead s.idx.toNat (min (s.len.toNat - s.idx.toNat) s.cfg.vlmax.val) = some [0x8000#16, 0x8000#16] ∧
      s.cfg.overflow = .wrap := by decide

/-- OpenOverflowIsFree: both directions out of the range. -/
theorem test_witness_openOverflow :
    (let s := scene openScalar .sum 0x7FFFFFFF#32 1#32 0#32 [0x0001#16]
     issueOk .acc1 s = true ∧ s.vecRead s.idx.toNat (readCount s .acc1) = some [0x0001#16] ∧
      s.cfg.overflow = .unconstrained ∧ 2147483647 < s.acc.toInt + (0x0001#16).toInt) ∧
    (let s := scene openScalar .sum 0x80000000#32 1#32 0#32 [0xFFFF#16]
     issueOk .acc1 s = true ∧ s.vecRead s.idx.toNat (readCount s .acc1) = some [0xFFFF#16] ∧
      s.cfg.overflow = .unconstrained ∧ s.acc.toInt + (0xFFFF#16).toInt < -2147483648) := by decide

/-- UnansweredReadIsStuck: a vector one element short. -/
theorem test_witness_unansweredRead :
    let s := scene unroll4 .sum 0#32 4#32 0#32 [0x0001#16, 0x0001#16, 0x0001#16]
    issueOk .acc4 s = true ∧ s.vecRead s.idx.toNat (readCount s .acc4) = none := by decide

/-- AccumulatorWrapsModulo: a sum that fits, and one out of range on either side. -/
theorem test_witness_accumulatorWraps :
    p1Sum.cfg.overflow = .wrap ∧ fits32 (p1Sum.acc.toInt + (0xFFFC#16).toInt) = true ∧
    2147483647 < (scene scalar .sum 0x7FFFFFFF#32 1#32 0#32 []).acc.toInt + (0x0001#16).toInt ∧
    (scene scalar .sum 0x80000000#32 1#32 0#32 []).acc.toInt + (0xFFFF#16).toInt < -2147483648 := by decide

/-- OrderAndGroupingDoNotMatter: a reordering that moves something. -/
theorem test_witness_orderAndGrouping :
    p1Sum.cfg.overflow = .wrap ∧ [0x0003#16, 0xFFFC#16].Perm [0xFFFC#16, 0x0003#16] := ⟨rfl, .swap _ _ _⟩

/-- ReadsStayInsideVector: the last group of a vector. -/
theorem test_witness_readsStayInside :
    let s := scene unroll8 .sum 0#32 9#32 1#32 []
    issueOk .acc8 s = true ∧ readCount s .acc8 ≠ 0 := by decide

/-- DivTruncatesTowardZero: its three clauses. -/
theorem test_witness_div :
    (let s := scene scalar .sum 0#32 0#32 0#32 []; s.phase = .sum ∧ s.idx = s.len ∧ s.len = 0#32) ∧
    (let s := scene scalar .sum 0#32 1#32 1#32 []; s.phase = .sum ∧ s.idx = s.len ∧ s.len ≠ 0#32) ∧
    ¬ (p1Sum.phase = .sum ∧ p1Sum.idx = p1Sum.len) := by decide

/-- FmtKeepsLowHalf and WrWritesResult: both sides of each condition. -/
theorem test_witness_fmt_wr :
    (scene scalar .divd 0#32 1#32 1#32 []).phase = .divd ∧ p1Fmtd.phase ≠ .divd ∧ p1Fmtd.phase = .fmtd ∧
    p1Sum.phase ≠ .fmtd ∧ 2 ≠ p1Fmtd.handles.dst ∧ 2 ≠ p1Fmtd.handles.dst + 1 ∧
    (let s := { scene scalar .divd 0#32 1#32 1#32 [] with quo := 0xFFFF8000#32 }
     s.phase = .divd ∧ -32768 ≤ s.quo.toInt ∧ s.quo.toInt ≤ 32767) := by decide

/-- NopChangesNothing: its clauses. -/
theorem test_witness_nop : p1.phase = .idle ∧ p1Vector.phase = .done ∧ p1Sum.phase ≠ .idle ∧ p1Sum.phase ≠ .done := by
  decide

/-- StartAccepted: from IDLE and from DONE, with the command on the ports. -/
theorem test_witness_startAccepted :
    (p1.phase = .idle ∧ p1.nextInput.rst = false ∧ p1.nextInput.start = true ∧ p1.nextInput.len = 2#32) ∧
    (p1Vector.phase = .done ∧ p1Vector.nextInput.rst = false ∧ p1Vector.nextInput.start = true ∧
      p1Vector.nextInput.len = 2#32) := by decide

/-- StartIntoBusyBlockDropped. -/
theorem test_witness_startDropped :
    let s := { p1Sum with inputs := [HostInput.startCmd 7#32] }
    s.busy = true ∧ s.inputs = HostInput.startCmd 7#32 :: [] := by decide

/-- RegisterFrame and MemoryFrame: a next state of an accumulate word and one of WR. -/
theorem test_witness_frames :
    (∃ t, exec .acc1 p1Sum = .next t) ∧ (∃ t, exec .wr p1Fmtd = .next t) ∧
    2 ≠ p1Fmtd.handles.dst ∧ 2 ≠ p1Fmtd.handles.dst + 1 :=
  ⟨exists_next (by decide), exists_next (by decide), by decide, by decide⟩

/-- BuildNeverChanges: a step out of a phase other than FMTD. -/
theorem test_witness_buildNeverChanges : (∃ t, step p1 = .next t) ∧ p1.phase ≠ .fmtd :=
  ⟨exists_next (by decide), by decide⟩

/-- OutWriteReplacesSlot: both byte orders, memory in canonical form, an address outside the slot. -/
theorem test_witness_outWrite :
    p1.order = .little ∧ ({ p1 with order := .big } : State).order = .big ∧ Memory.wf p1.mem ∧
    2 ≠ p1.handles.dst ∧ 2 ≠ p1.handles.dst + 1 := by decide

/-- SampleByteMapping: element 1 of P1's vector. -/
theorem test_witness_sampleByteMapping :
    Memory.read p1.mem (p1.handles.src + 2 * 1) = some 0xFC#8 ∧
    Memory.read p1.mem (p1.handles.src + 2 * 1 + 1) = some 0xFF#8 := by decide

/-- VecReadReturnsElements, LaneOfBeatIsElement: an answered read, and a lane. -/
theorem test_witness_vecRead :
    p1.vecRead 0 2 = some [0x0003#16, 0xFFFC#16] ∧ [0x0003#16, 0xFFFC#16][1]? = some 0xFFFC#16 := by decide

/-- HostWordIsDefined: an input with `start` = 0. -/
theorem test_witness_hostWord :
    ({ p1Sum with inputs := [HostInput.idle] } : State).inputs = HostInput.idle :: [] ∧ HostInput.idle.start = false := by
  decide

/-- DataPortLanes: a short read, with a lane above it, on the port of a VECTOR build; and an answered request. -/
theorem test_witness_dataPort :
    ([0x8000#16, 0x8000#16] : List Sample).length ≤ laneCount vector4 ∧
    ([0x8000#16, 0x8000#16] : List Sample).length + 1 < laneCount vector4 ∧ rdAck HostInput.idle p1Sum = true := by decide

/-- UpperLanesIgnored: a word that answers a next state, one that faults and one that is refused. -/
theorem test_witness_upperLanes :
    (∃ t, exec .acc1 p1Sum = .next t) ∧ (exec .acc1 (scene scalar .sum 0#32 1#32 0#32 []) = .fault .unansweredRead) ∧
    exec .wr p1Sum = .refused .outOfPhaseWord := ⟨exists_next (by decide), rfl, rfl⟩

/-- SafeLengthIsExact: the bound itself, and the least length above it. -/
theorem test_witness_safeLength :
    fits32 (([0x8000#16] : List Sample).map BitVec.toInt).sum = true ∧
    (List.replicate 65536 (0x8000#16 : Sample)).length ≤ 65536 ∧ 65536 < 65537 :=
  ⟨by decide, by rw [List.length_replicate], by decide⟩

/-- TdivIsTheTruncatedQuotient, TdivLaws: the least divisor, with a quotient and a remainder, and what the clauses ask
of the operands, a pattern whose negation exists and one whose negation does not among them. -/
theorem test_witness_tdiv :
    1 ≤ 1 ∧ (2 : Nat) ≥ 1 ∧ (-7 : Int) = 2 * (-3) + (-1) ∧ |(-1 : Int)| < 2 ∧ (-7 : Int) ≤ -6 ∧ (2#32 : Word).toNat = 2 ∧
    (0x80000001#32 : Word) ≠ 0x80000000#32 := by decide

/-- BiasedShiftIsTheQuotient: the greatest shift. -/
theorem test_witness_biasedShift : 31 ≤ 31 := by decide

/-- ConstantVectorMean: a vector above SAFE_LEN whose sum fits, and the bound of the last clause. -/
theorem test_witness_constantVector :
    1 ≤ 65537 ∧ fits32 ((65537 : Nat) * (0x0001#16 : Sample).toInt) = true ∧ 65536 ≤ 65536 := by decide

/-- ZeroResultIff, ResultBoundsAndError: S4's vector and a zero-sum vector, with bounds of the samples. -/
theorem test_witness_results :
    1 ≤ ([0x0003#16, 0xFFFC#16] : List Sample).length ∧
    fits32 (([0x0003#16, 0xFFFC#16] : List Sample).map BitVec.toInt).sum = true ∧
    (∀ e ∈ ([0x0003#16, 0xFFFC#16] : List Sample), -4 ≤ e.toInt ∧ e.toInt ≤ 3) ∧
    (([0x0007#16, 0xFFF9#16] : List Sample).map BitVec.toInt).sum = 0 := by
  refine ⟨by decide, by decide, ?_, by decide⟩
  intro e he
  simp only [List.mem_cons, List.not_mem_nil, or_false] at he
  rcases he with rfl | rfl <;> decide

/-- ResetWinsOverEverything: a reset presented together with START to a busy block. -/
theorem test_witness_reset :
    ({ p1Sum with inputs := [{ HostInput.startCmd 7#32 with rst := true }] } : State).nextInput.rst = true := rfl

/-- P1 before step 3 meets the invariant. -/
theorem test_witness_inv : p1Sum.Inv :=
  { mem_wf := by decide
    regs := ⟨by decide, by decide, by decide, by decide, by decide⟩
    bounded := fun _ _ => by decide }

/-- StepKeepsInvariant, NoStepIsRefused: a state with the invariant and its next state. -/
theorem test_witness_stepKeepsInvariant : p1Sum.Inv ∧ ∃ t, step p1Sum = .next t :=
  ⟨test_witness_inv, exists_next (by decide)⟩

/-- StepKeepsSum: P1 before step 3, where ACC holds IN[0]. -/
theorem test_witness_stepKeepsSum :
    p1Sum.Inv ∧ p1Sum.SumInv ∧ p1Sum.QuietAhead ∧ p1Sum.cfg.overflow = .wrap ∧ ∃ t, step p1Sum = .next t :=
  ⟨test_witness_inv, fun _ => ⟨[0x0003#16], by decide, by decide⟩, fun _ h => absurd h List.not_mem_nil, rfl,
    exists_next (by decide)⟩

/-- QuotientFitsSample: P1 before WR. -/
theorem test_witness_quotientFits :
    p1Fmtd.Inv ∧ p1Fmtd.phase.divided = true ∧ p1Fmtd.phase.formatted = true :=
  ⟨{ mem_wf := by decide
     regs := ⟨by decide, by decide, by decide, by decide, by decide⟩
     bounded := fun _ _ => by decide }, rfl, rfl⟩

/-- FaultCauses: each cause. -/
theorem test_witness_faultCauses :
    (let s := scene scalar .sum 0#32 0#32 0#32 []
     s.nextInput.rst = false ∧ s.phase = .sum ∧ s.idx = s.len ∧ s.len = 0#32) ∧
    (let s := scene scalar .sum 0#32 1#32 0#32 []
     s.nextInput.rst = false ∧ s.phase = .sum ∧ s.idx.toNat < s.len.toNat) ∧
    ¬ (scene scalar .sum 0#32 1#32 0#32 []).Answered := by
  refine ⟨by decide, by decide, ?_⟩
  unfold State.Answered
  decide

/-- Progress: an answered accumulate step. -/
theorem test_witness_progress :
    p1Sum.Inv ∧ p1Sum.Answered ∧ ¬ (p1Sum.phase = .sum ∧ p1Sum.len = 0#32) ∧ p1Sum.nextInput.rst = false ∧
    p1Sum.phase = .sum ∧ p1Sum.idx.toNat < p1Sum.len.toNat := by
  refine ⟨test_witness_inv, ?_, by decide, by decide, by decide, by decide⟩
  unfold State.Answered
  decide

/-- NoHiddenState: two states that agree and are not the same. -/
theorem test_witness_noHiddenState : p1.phase = .idle ∧ p1.Agree { p1 with acc := 5#32, res := 7#16 } ∧
    p1 ≠ { p1 with acc := 5#32, res := 7#16 } :=
  ⟨rfl, ⟨rfl, rfl, rfl, rfl, rfl, rfl, rfl, fun _ => rfl, fun h => (by cases h), fun _ => rfl, fun _ => rfl,
    fun h => (by cases h)⟩, by decide⟩

/-- PortsFollowTheStep: the write port and the read port in use. -/
theorem test_witness_ports : wrEn HostInput.idle p1Fmtd = true ∧ rdReq HostInput.idle p1Sum = true := by decide

/-- InvocationComputesMean, TraceIsTheStrategySequence, EveryElementReadOnceInOrder: P1; and, for the first, an open
build within SAFE_LEN. -/
theorem test_witness_invocation :
    p1.cfg.overflow = .wrap ∧ 1 ≤ 1 ∧
    (let s := { p1 with cfg := openScalar }
     s.cfg.overflow ≠ .wrap ∧ s.vecRead 0 2 = some [0x0003#16, 0xFFFC#16] ∧
      (HostInput.startCmd 2#32).len.toNat ≤ Config.safeLen) := by decide

/-- StrategiesBitIdentical: the second instance beside P1, of another build, from DONE. -/
theorem test_witness_strategies :
    p1Vector.phase = .done ∧ p1Vector.inputs = HostInput.startCmd 2#32 :: [] ∧
    p1Vector.vecRead 0 (HostInput.startCmd 2#32).len.toNat = some [0x0003#16, 0xFFFC#16] ∧
    p1Vector.cfg.overflow = .wrap ∧ p1Vector.cfg ≠ p1.cfg := by decide

/-- OutKeptUntilWrite: the first step of P1, and the last one before WR. -/
theorem test_witness_outKept :
    1 ≤ 1 ∧ 6 ≤ meanSteps p1.cfg (HostInput.startCmd 2#32).len.toNat ∧ (∃ t, runSteps 1 p1 = .next t) ∧
    ∃ t, runSteps 6 p1 = .next t :=
  ⟨by decide, by decide, exists_next (by decide), exists_next (by decide)⟩

/-- ZeroLengthFaultsAtDiv: program P5. -/
theorem test_witness_zeroLength :
    let s := { p1 with inputs := [HostInput.startCmd 0#32, HostInput.idle] }
    (s.phase = .idle ∨ s.phase = .done) ∧ s.inputs = HostInput.startCmd 0#32 :: [HostInput.idle] ∧
    (HostInput.startCmd 0#32).rst = false ∧ (HostInput.startCmd 0#32).start = true ∧
    (HostInput.startCmd 0#32).len = 0#32 ∧ ∀ q ∈ [HostInput.idle], q.rst = false := by decide

end Sys2Proof.Tests
end

section
/-! PROOFS of the scope family (spec/00_scope.md): the static parameters, the byte order and the environment over one
step. First what a step is in terms of `exec`, then what `exec` keeps, then the step. -/

namespace Sys2Proof.Machine

/-! ### A step executes the issued instruction -/

/-- START's word has bit 32 set and the length below it (R83), and each row of R84 decodes to itself. -/
theorem decode_encode (i : Instr) : decode (encode i) = .ok i := by
  cases i with
  | start n =>
    have hstart : (1#1 ++ n).getLsbD 32 = true := by
      rw [BitVec.getLsbD_append]; rfl
    have hlen : (1#1 ++ n).extractLsb' 0 32 = n := BitVec.extractLsb'_append_eq_right
    simp only [encode, decode, decodeCommand, hstart, hlen, if_true]
  | _ => rfl

theorem runWord_encode (i : Instr) (s : State) : runWord (encode i) s = exec i s :=
  runWord_of_decode (decode_encode i) s

theorem issuedWord_eq_some_iff {p : HostInput} {s : State} {w : CodeWord} :
    issuedWord p s = some w ↔ ∃ i, issued p s = some i ∧ encode i = w := by
  unfold issuedWord
  cases issued p s <;> simp

/-- A step that answers a next state was a reset, or executed the instruction that was issued. -/
theorem of_step_next_exec {s t : State} (h : step s = .next t) :
    (s.nextInput.rst = true ∧ t = s.afterInput.resetEvent) ∨
    (s.nextInput.rst = false ∧ ∃ i, issued s.nextInput s.afterInput = some i ∧ exec i s.afterInput = .next t) := by
  obtain hreset | ⟨hrst, w, hw, hrun⟩ := of_step_next h
  · exact .inl hreset
  · obtain ⟨i, hi, rfl⟩ := issuedWord_eq_some_iff.mp hw
    exact .inr ⟨hrst, i, hi, runWord_encode i _ ▸ hrun⟩

/-! ### What an instruction keeps of the build and of the environment -/

theorem State.canWr_iff {s : State} : s.canWr = true ↔ s.phase = .fmtd := by simp [State.canWr]

/-- R29: no instruction touches the build, the byte order, the handles or the pending inputs. -/
theorem exec_keeps_build {i : Instr} {s t : State} (h : exec i s = .next t) :
    t.cfg = s.cfg ∧ t.order = s.order ∧ t.handles = s.handles ∧ t.inputs = s.inputs := by
  obtain ⟨-, -, rfl⟩ | ⟨-, -, rfl⟩ | ⟨_, _, -, -, rfl⟩ | ⟨-, -, -, rfl⟩ | ⟨-, -, rfl⟩ | ⟨-, -, rfl⟩ |
    ⟨_, -, -, rfl⟩ | ⟨_, -, -, rfl⟩ := of_exec_next h <;> simp

/-- R52: an instruction leaves memory as it is, or it is WR, issued in FMTD. -/
theorem exec_mem_eq_or_wr {i : Instr} {s t : State} (h : exec i s = .next t) :
    t.mem = s.mem ∨ (i = .wr ∧ s.phase = .fmtd ∧ t = s.finish) := by
  obtain ⟨-, -, rfl⟩ | ⟨-, -, rfl⟩ | ⟨_, _, -, -, rfl⟩ | ⟨-, -, -, rfl⟩ | ⟨-, -, rfl⟩ | ⟨hwr, hcan, hfin⟩ |
    ⟨_, -, -, rfl⟩ | ⟨_, -, -, rfl⟩ := of_exec_next h
  · exact .inl rfl
  · exact .inl s.clear_mem
  · exact .inl (s.addSamples_mem _)
  · exact .inl (s.latchQuotient_mem _)
  · exact .inl (s.latchResult_mem _)
  · exact .inr ⟨hwr, State.canWr_iff.mp hcan, hfin⟩
  · exact .inl (s.latchLen_mem _)
  · exact .inl rfl

/-! ### The step -/

/-- Settles O27: a reset event writes none of the four fields nor memory; otherwise the issued instruction runs in the
state the input left, keeps the four, and writes memory only as WR, whose condition is FMTD. -/
theorem buildNeverChanges : Obligations.BuildNeverChanges := by
  unfold Obligations.BuildNeverChanges
  intro s t h
  obtain ⟨-, rfl⟩ | ⟨-, i, -, hexec⟩ := of_step_next_exec h
  · simp
  · obtain ⟨hcfg, horder, hhandles, hinputs⟩ := exec_keeps_build hexec
    refine ⟨hcfg, horder, hhandles, hinputs, fun hphase => ?_⟩
    obtain hmem | ⟨-, hfmtd, -⟩ := exec_mem_eq_or_wr hexec
    · exact hmem
    · exact absurd hfmtd hphase

end Sys2Proof.Machine
end

section
/-! PROOFS of the state family (spec/10_state.md), the accumulate words: the lanes cut from the data port are the
elements read (R55, R81), and an accumulate word is issued in SUM, asking for no more
than is left and no more than the port holds. -/

namespace Sys2Proof.Machine

/-! ### The lanes of the data port -/

theorem lane_eq_of_getLsbD {w v : Nat} {b : BitVec w} {c : BitVec v} {k j : Nat}
    (h : ∀ i < 16, b.getLsbD (16 * k + i) = c.getLsbD (16 * j + i)) : lane b k = lane c j := by
  apply BitVec.eq_of_getLsbD_eq
  intro i hi
  simp [lane, hi, h i hi]

theorem lane_beat_cons_zero (e : Sample) (es : List Sample) : lane (beat (e :: es)) 0 = e :=
  BitVec.extractLsb'_append_eq_right

theorem lane_beat_cons_succ (e : Sample) (es : List Sample) (k : Nat) :
    lane (beat (e :: es)) (k + 1) = lane (beat es) k := by
  refine lane_eq_of_getLsbD fun i _ => ?_
  have hlow : ¬ 16 * (k + 1) + i < 16 := by omega
  have hsub : 16 * (k + 1) + i - 16 = 16 * k + i := by omega
  show (beat es ++ e : BitVec (16 * es.length + 16)).getLsbD _ = _
  rw [BitVec.getLsbD_append, if_neg hlow, hsub]

theorem lanes_succ {w : Nat} (b : BitVec w) (n : Nat) :
    lanes b (n + 1) = lane b 0 :: (List.range n).map (fun k => lane b (k + 1)) := by
  simp [lanes, List.range_succ_eq_map]

/-- R55: cutting the packed beat gives the elements back. -/
theorem lanes_beat (es : List Sample) : lanes (beat es) es.length = es := by
  induction es with
  | nil => rfl
  | cons e es ih =>
    calc lanes (beat (e :: es)) (e :: es).length
        = lane (beat (e :: es)) 0 :: (List.range es.length).map (fun k => lane (beat (e :: es)) (k + 1)) :=
          lanes_succ _ _
      _ = e :: lanes (beat es) es.length := by simp only [lane_beat_cons_zero, lane_beat_cons_succ, lanes]
      _ = e :: es := by rw [ih]

/-- R81, U17: whatever stands on the lanes above, the lanes asked for are the elements, provided the port holds them. -/
theorem lanes_readBeat {s : State} {es : List Sample} (h : es.length ≤ laneCount s.cfg) :
    lanes (s.readBeat es) es.length = es := by
  refine (List.map_congr_left fun k hk => ?_).trans (lanes_beat es)
  have hk := List.mem_range.mp hk
  refine lane_eq_of_getLsbD fun i hi => ?_
  have hport : 16 * k + i < 16 * laneCount s.cfg := by omega
  have hbeat : 16 * k + i < 16 * es.length := by omega
  simp [State.readBeat, hport, hbeat]

theorem laneCount_pos (c : Config.Params) : 1 ≤ laneCount c := by
  unfold laneCount
  cases c.strat with
  | scalar => exact Nat.le_refl 1
  | unroll => exact Nat.le_of_lt (Config.Group.one_lt_size c.group)
  | vector => exact c.vlmax.2

/-! ### The accumulate words -/

theorem accumulate_of_vecRead_none {s : State} {n : Nat} (hread : s.vecRead s.idx.toNat n = none) :
    accumulate n s = .fault .unansweredRead := by
  rw [accumulate, hread]

theorem accumulate_of_vecRead {s : State} {n : Nat} {es : List Sample} (hread : s.vecRead s.idx.toNat n = some es)
    (hn : n ≤ laneCount s.cfg) : accumulate n s = .next (s.addSamples es) := by
  obtain rfl := State.length_of_vecRead hread
  simp only [accumulate, hread, lanes_readBeat hn]

/-- The four accumulate words are one step, guarded by R108 and reading as many elements as R84 says. -/
theorem exec_accWord {i : Instr} (hi : i = .acc1 ∨ i = .acc4 ∨ i = .acc8 ∨ i = .vred) (s : State) :
    exec i s = issueWhen (issueOk i s) (accumulate (readCount s i) s) := by
  rcases hi with rfl | rfl | rfl | rfl <;> rfl

theorem State.idx_add_le_len {s : State} {n : Nat} (hn : 1 ≤ n) (hrem : n ≤ s.rem) :
    s.idx.toNat + n ≤ s.len.toNat := by
  unfold State.rem at hrem
  omega

/-- R108: an accumulate word is issued in SUM only, its read stays inside the vector and fits the port. -/
theorem accWord_bounds {i : Instr} {s : State} (hi : i = .acc1 ∨ i = .acc4 ∨ i = .acc8 ∨ i = .vred)
    (hok : issueOk i s = true) :
    s.phase = .sum ∧ s.idx.toNat + readCount s i ≤ s.len.toNat ∧ readCount s i ≤ laneCount s.cfg := by
  rcases hi with rfl | rfl | rfl | rfl
  · simp only [issueOk, State.canAcc1, Bool.and_eq_true, decide_eq_true_eq] at hok
    obtain ⟨⟨hphase, hrem⟩, -⟩ := hok
    exact ⟨hphase, State.idx_add_le_len (Nat.le_refl 1) hrem, laneCount_pos s.cfg⟩
  · simp only [issueOk, State.canAcc4, Bool.and_eq_true, decide_eq_true_eq] at hok
    obtain ⟨⟨⟨hphase, hrem⟩, hstrat⟩, hgroup⟩ := hok
    refine ⟨hphase, State.idx_add_le_len (by simp [readCount]) hrem, ?_⟩
    simp [readCount, laneCount, hstrat, hgroup, Config.Group.size]
  · simp only [issueOk, State.canAcc8, Bool.and_eq_true, decide_eq_true_eq] at hok
    obtain ⟨⟨⟨hphase, hrem⟩, hstrat⟩, hgroup⟩ := hok
    refine ⟨hphase, State.idx_add_le_len (by simp [readCount]) hrem, ?_⟩
    simp [readCount, laneCount, hstrat, hgroup, Config.Group.size]
  · simp only [issueOk, State.canVred, Bool.and_eq_true, decide_eq_true_eq] at hok
    obtain ⟨⟨hphase, hrem⟩, hstrat⟩ := hok
    refine ⟨hphase, State.idx_add_le_len (le_min hrem s.cfg.vlmax.2) (min_le_left _ _), ?_⟩
    simp [readCount, State.vl, laneCount, hstrat]

/-- After the samples of a read inside the vector IDX has advanced by their number, without wrapping. -/
theorem State.addSamples_idx_toNat {s : State} {es : List Sample} (h : s.idx.toNat + es.length ≤ s.len.toNat) :
    (s.addSamples es).idx.toNat = s.idx.toNat + es.length := by
  have hlen := s.len.isLt
  have hes : (BitVec.ofNat 32 es.length).toNat = es.length := by
    rw [BitVec.toNat_ofNat, Nat.mod_eq_of_lt (by omega)]
  rw [State.addSamples_idx, BitVec.toNat_add_of_lt (by omega), hes]

end Sys2Proof.Machine
end

section
/-! PROOFS of the state family, the effect of a step: what an instruction that answers a next state did, by the phase
it was issued in. The invariants are proved over these seven effects and the reset. -/

namespace Sys2Proof.Machine

theorem State.canClr_iff {s : State} : s.canClr = true ↔ s.phase = .init := by simp [State.canClr]

theorem State.canDiv_iff {s : State} : s.canDiv = true ↔ s.phase = .sum ∧ s.idx = s.len := by simp [State.canDiv]

theorem State.canFmt_iff {s : State} : s.canFmt = true ↔ s.phase = .divd := by simp [State.canFmt]

/-- What one instruction that answers a next state does to the state, with what its issue condition and its read say. -/
inductive State.Effect (s : State) : State → Prop
  /-- NOP, and a START into a busy block. -/
  | stay : s.Effect s
  /-- CLR. -/
  | clear (hphase : s.phase = .init) : s.Effect s.clear
  /-- An accumulate word, which adds the elements it read. -/
  | add (es : List Sample) (hphase : s.phase = .sum) (hread : s.vecRead s.idx.toNat es.length = some es)
      (hidx : s.idx.toNat + es.length ≤ s.len.toNat) : s.Effect (s.addSamples es)
  /-- DIV of a vector that is not empty. -/
  | divide (hphase : s.phase = .sum) (hidx : s.idx = s.len) (hlen : 1 ≤ s.len.toNat) :
      s.Effect (s.latchQuotient (quotient s.acc s.len))
  /-- FMT. -/
  | format (hphase : s.phase = .divd) : s.Effect (s.latchResult (narrow s.quo))
  /-- WR. -/
  | write (hphase : s.phase = .fmtd) : s.Effect s.finish
  /-- A START that is accepted. -/
  | start (n : Word) : s.Effect (s.latchLen n)

theorem accWord_effect {i : Instr} {s t : State} (hi : i = .acc1 ∨ i = .acc4 ∨ i = .acc8 ∨ i = .vred)
    (h : exec i s = .next t) : s.Effect t := by
  rw [exec_accWord hi] at h
  obtain ⟨hok, hacc⟩ := of_issueWhen_next h
  obtain ⟨hphase, hidx, hlanes⟩ := accWord_bounds hi hok
  obtain ⟨es, hread, -⟩ := of_accumulate_next hacc
  have hlength := State.length_of_vecRead hread
  cases (accumulate_of_vecRead hread hlanes).symm.trans hacc
  exact .add es hphase (hlength ▸ hread) (by omega)

theorem exec_effect {i : Instr} {s t : State} (h : exec i s = .next t) : s.Effect t := by
  obtain ⟨-, -, rfl⟩ | ⟨-, hclr, rfl⟩ | ⟨n, es, hword, -, -⟩ | ⟨-, hdiv, hlen, rfl⟩ | ⟨-, hfmt, rfl⟩ |
    ⟨-, hwr, rfl⟩ | ⟨n, -, -, rfl⟩ | ⟨_, -, -, rfl⟩ := of_exec_next h
  · exact .stay
  · exact .clear (State.canClr_iff.mp hclr)
  · exact accWord_effect (hword.imp And.left (.imp And.left (.imp And.left And.left))) h
  · obtain ⟨hphase, hidx⟩ := State.canDiv_iff.mp hdiv
    have hpos : s.len.toNat ≠ 0 := fun h0 => hlen (BitVec.eq_of_toNat_eq h0)
    exact .divide hphase hidx (by omega)
  · exact .format (State.canFmt_iff.mp hfmt)
  · exact .write (State.canWr_iff.mp hwr)
  · exact .start n
  · exact .stay

theorem step_effect {s t : State} (h : step s = .next t) :
    t = s.afterInput.resetEvent ∨ s.afterInput.Effect t := by
  obtain ⟨-, rfl⟩ | ⟨-, i, -, hexec⟩ := of_step_next_exec h
  · exact .inl rfl
  · exact .inr (exec_effect hexec)

end Sys2Proof.Machine
end

section
/-! PROOFS of the state family, the adder and the divider as integers (R140, R163, R166). -/

namespace Sys2Proof.Machine

theorem laneSum_eq_fromSint32 (es : List Sample) : laneSum es = fromSint32 (exactSum es) := by
  induction es with
  | nil => rfl
  | cons e es ih =>
    rw [laneSum, exactSum, ih, fromSint32, fromSint32, BitVec.ofInt_add, ← sext32_toInt, BitVec.ofInt_toInt]

/-- R163: the wrapping adder gives the pattern of the exact sum. -/
theorem add_laneSum (a : Word) (es : List Sample) : a + laneSum es = fromSint32 (a.toInt + exactSum es) := by
  rw [laneSum_eq_fromSint32, fromSint32, fromSint32, BitVec.ofInt_add, BitVec.ofInt_toInt]

/-- R163 on the unsigned reading: a sum known modulo 2^32 stays known modulo 2^32. -/
theorem add_laneSum_toNat {a : Word} {k : Int} (ha : (a.toNat : Int) = k % 4294967296) (es : List Sample) :
    ((a + laneSum es).toNat : Int) = (k + exactSum es) % 4294967296 := by
  rw [laneSum_eq_fromSint32, fromSint32, BitVec.toNat_add, BitVec.toNat_ofInt]
  norm_num
  omega

theorem exactSum_bounds (es : List Sample) :
    -32768 * (es.length : Int) ≤ exactSum es ∧ exactSum es ≤ 32767 * (es.length : Int) := by
  induction es with
  | nil => exact ⟨Int.le_refl 0, Int.le_refl 0⟩
  | cons e es ih =>
    have hrange := sample_toInt_range e
    simp only [exactSum, List.length_cons]
    omega

theorem State.overflowOpen_of_fits {s : State} {es : List Sample} (h : fits32 (s.acc.toInt + exactSum es) = true) :
    s.overflowOpen es = false := by
  simp [State.overflowOpen, State.leavesRange, h]

/-- Where the exact sum has a pattern ACC is exact, under either OVERFLOW_POLICY (U3). -/
theorem State.nextAcc_toInt_of_fits {s : State} {es : List Sample} (h : fits32 (s.acc.toInt + exactSum es) = true) :
    (s.nextAcc es).toInt = s.acc.toInt + exactSum es := by
  rw [State.nextAcc_of_not_open (State.overflowOpen_of_fits h), add_laneSum, fromSint32_toInt h]

/-- R140: a quotient by an unsigned divisor of at least 1 is no larger than its dividend, so QUO holds it exactly. -/
theorem quotient_toInt (a : Word) {n : Word} (hn : 1 ≤ n.toNat) : (quotient a n).toInt = tdiv a.toInt n.toNat := by
  refine fromSint32_toInt ((fits32_iff _).mpr ?_)
  obtain ⟨hlow, hhigh⟩ := word_toInt_range a
  rw [tdiv_of_pos _ hn]
  split
  case isTrue hnonneg =>
    have hpos := Int.ediv_nonneg hnonneg (Int.natCast_nonneg n.toNat)
    have hle := Int.ediv_le_self n.toNat hnonneg
    omega
  case isFalse hneg =>
    have hnonneg : 0 ≤ -a.toInt := by omega
    have hpos := Int.ediv_nonneg hnonneg (Int.natCast_nonneg n.toNat)
    have hle := Int.ediv_le_self n.toNat hnonneg
    omega

end Sys2Proof.Machine
end

section
/-! PROOFS of the state family, the invariants on the registers (R31(a), (c), (d), (e); R166): at reset, over each
effect, over a step. -/

namespace Sys2Proof.Machine

/-- Settles O44: PHASE is IDLE, where neither invariant asks anything of a register. -/
theorem invariantAtReset : Obligations.InvariantAtReset := by
  unfold Obligations.InvariantAtReset
  refine ⟨⟨State.reset_mem_wf, ⟨nofun, nofun, nofun, nofun, nofun⟩, nofun⟩, ?_, ?_⟩
  · simp [State.SumInv, State.reset]
  · simp [State.QuietAhead, State.reset]

theorem Phase.divided_of_formatted {p : Phase} : p.formatted = true → p.divided = true := by
  cases p <;> decide

theorem Phase.cleared_of_divided {p : Phase} : p.divided = true → p.cleared = true := by
  cases p <;> decide

theorem State.Inv.afterInput {s : State} (h : s.Inv) : s.afterInput.Inv where
  mem_wf := Memory.writeAll_wf h.mem_wf _
  regs := { h.regs with }
  bounded := h.bounded

theorem State.Effect.mem_wf {s t : State} (heff : s.Effect t) (h : Memory.wf s.mem) : Memory.wf t.mem := by
  cases heff with
  | write => exact Memory.write16_wf h _ _ _
  | _ => exact h

/-- R31: CLR starts IDX at 0, an accumulate word stays inside the vector, DIV meets LEN and makes QUO, FMT makes RES,
and WR and a dropped word change none of them. -/
theorem State.RegInv.of_effect {s t : State} (h : s.RegInv) (heff : s.Effect t) : t.RegInv := by
  cases heff with
  | stay => exact h
  | clear => exact ⟨fun _ => Nat.zero_le _, nofun, nofun, nofun, nofun⟩
  | add es hphase hread hidx =>
    have hdivided : (s.addSamples es).phase.divided ≠ true := by simp [hphase, Phase.divided]
    have hformatted := mt Phase.divided_of_formatted hdivided
    exact ⟨fun _ => (State.addSamples_idx_toNat hidx).le.trans hidx, (absurd · hdivided), (absurd · hdivided),
      (absurd · hdivided), (absurd · hformatted)⟩
  | divide hphase hidx hlen =>
    exact ⟨fun _ => hidx ▸ Nat.le_refl _, fun _ => hidx, fun _ => hlen, fun _ => quotient_toInt _ hlen, nofun⟩
  | format hphase =>
    have hdivided : s.phase.divided = true := by rw [hphase]; rfl
    exact ⟨fun _ => h.idx_le_len (Phase.cleared_of_divided hdivided), fun _ => h.idx_eq_len hdivided,
      fun _ => h.len_pos hdivided, fun _ => h.quo_eq hdivided, fun _ => rfl⟩
  | write hphase =>
    have hformatted : s.phase.formatted = true := by rw [hphase]; rfl
    have hdivided := Phase.divided_of_formatted hformatted
    exact ⟨fun _ => h.idx_le_len (Phase.cleared_of_divided hdivided), fun _ => h.idx_eq_len hdivided,
      fun _ => h.len_pos hdivided, fun _ => h.quo_eq hdivided, fun _ => h.res_eq hformatted⟩
  | start n => exact ⟨nofun, nofun, nofun, nofun, nofun⟩

/-- R166: up to SAFE_LEN samples the bounds of ACC and of the new samples add up inside the 32-bit range, so ACC is
exact and the bounds are kept. -/
theorem State.AccBounded.addSamples {s : State} {es : List Sample} (h : s.AccBounded) (hphase : s.phase = .sum)
    (hidx : s.idx.toNat + es.length ≤ s.len.toNat) : (s.addSamples es).AccBounded := by
  intro _ hsafe
  rw [State.addSamples_idx_toNat hidx] at hsafe ⊢
  have hsum := exactSum_bounds es
  have hacc := h (by rw [hphase]; rfl) (by omega)
  have hfits : fits32 (s.acc.toInt + exactSum es) = true := by
    rw [fits32_iff]
    simp only [Config.safeLen] at hsafe
    omega
  rw [State.addSamples_acc, State.nextAcc_toInt_of_fits hfits]
  push_cast
  omega

theorem State.AccBounded.of_effect {s t : State} (h : s.AccBounded) (heff : s.Effect t) : t.AccBounded := by
  cases heff with
  | stay => exact h
  | clear => intro _ _; simp
  | add es hphase hread hidx => exact h.addSamples hphase hidx
  | divide hphase => exact fun _ => h (by rw [hphase]; rfl)
  | format hphase => exact fun _ => h (by rw [hphase]; rfl)
  | write hphase => exact fun _ => h (by rw [hphase]; rfl)
  | start n => exact nofun

theorem State.Inv.of_effect {s t : State} (h : s.Inv) (heff : s.Effect t) : t.Inv :=
  ⟨heff.mem_wf h.mem_wf, h.regs.of_effect heff, h.bounded.of_effect heff⟩

/-- Settles O45: the host's input keeps the invariant, a reset leaves a PHASE that asks nothing of a register, and each
effect keeps it. -/
theorem stepKeepsInvariant : Obligations.StepKeepsInvariant := by
  unfold Obligations.StepKeepsInvariant
  intro s t h hstep
  obtain rfl | heff := step_effect hstep
  · exact ⟨h.afterInput.mem_wf, ⟨nofun, nofun, nofun, nofun, nofun⟩, nofun⟩
  · exact h.afterInput.of_effect heff

end Sys2Proof.Machine
end

section
/-! PROOFS of the state family, the sum invariant (R31(b)): an accumulate word appends its read to the samples already
added, and the one write leaves a vector apart from the slot as it was (R69). -/

namespace Sys2Proof.Machine

/-- What `State.SumInv` asks in the phases it speaks of: ACC is the sum of `IN[0]` to `IN[IDX-1]` modulo 2^32. -/
def State.Summed (s : State) : Prop :=
  ∃ es, s.vecRead 0 s.idx.toNat = some es ∧ (s.acc.toNat : Int) = exactSum es % 4294967296

theorem State.sumInv_iff {s : State} : s.SumInv ↔
    (s.phase = .sum ∨ s.phase = .divd ∨ s.phase = .fmtd ∨ (s.phase = .done ∧ s.OutApart) → s.Summed) := Iff.rfl

theorem State.Summed.of_vecRead {s t : State} (h : s.Summed)
    (hread : t.vecRead 0 s.idx.toNat = s.vecRead 0 s.idx.toNat) (hidx : t.idx = s.idx) (hacc : t.acc = s.acc) :
    t.Summed := by
  unfold State.Summed
  rw [hidx, hacc, hread]
  exact h

theorem State.vecRead_append {s : State} {i m n : Nat} {es fs : List Sample} (hes : s.vecRead i m = some es)
    (hfs : s.vecRead (i + m) n = some fs) : s.vecRead i (m + n) = some (es ++ fs) := by
  induction m generalizing i es with
  | zero =>
    cases hes
    simpa using hfs
  | succ m ih =>
    rw [Nat.add_right_comm]
    simp only [State.vecRead] at hes ⊢
    split at hes
    case h_1 e tl he htl =>
      cases hes
      rw [he, ih htl (by rwa [Nat.add_right_comm])]
      rfl
    case h_2 => cases hes

theorem State.Summed.addSamples {s : State} {fs : List Sample} (h : s.Summed) (hwrap : s.cfg.overflow = .wrap)
    (hread : s.vecRead s.idx.toNat fs.length = some fs) (hidx : s.idx.toNat + fs.length ≤ s.len.toNat) :
    (s.addSamples fs).Summed := by
  obtain ⟨es, hes, hacc⟩ := h
  refine ⟨es ++ fs, ?_, ?_⟩
  · rw [State.addSamples_idx_toNat hidx, State.vecRead_congr (s := s.addSamples fs) (t := s) _ _ fun _ _ _ => rfl]
    exact State.vecRead_append hes (by rwa [Nat.zero_add])
  · rw [State.addSamples_acc, State.nextAcc_of_not_open (State.overflowOpen_of_wrap hwrap fs), exactSum_append]
    exact add_laneSum_toNat hacc fs

@[simp] theorem State.finish_outApart (s : State) : s.finish.OutApart ↔ s.OutApart := Iff.rfl

/-- R69: a slot outside the vector, so the write changes neither byte of any element. -/
theorem State.finish_sample {s : State} (hapart : s.OutApart) {k : Nat} (hk : k < s.len.toNat) :
    s.finish.sample k = s.sample k := by
  unfold State.OutApart at hapart
  refine Memory.read16_congr _ ?_ ?_ <;>
    rw [State.finish_mem, State.finish_handles, Memory.read_write16, if_neg (by omega), if_neg (by omega)]

theorem State.QuietAhead.nextInput {s : State} (h : s.QuietAhead) : s.nextInput.Quiet := by
  unfold State.nextInput
  cases hinputs : s.inputs with
  | nil => exact ⟨rfl, rfl⟩
  | cons p ps => exact h p (by simp [hinputs])

theorem State.SumInv.afterInput {s : State} (h : s.SumInv) (hquiet : s.nextInput.Quiet) : s.afterInput.SumInv := by
  rw [State.afterInput_of_quiet hquiet]
  exact fun hphase => (State.sumInv_iff.mp h hphase).of_vecRead (State.vecRead_congr _ _ fun _ _ _ => rfl) rfl rfl

theorem State.SumInv.of_effect {s t : State} (h : s.SumInv) (hinv : s.Inv) (hwrap : s.cfg.overflow = .wrap)
    (heff : s.Effect t) : t.SumInv := by
  rw [State.sumInv_iff] at h ⊢
  cases heff with
  | stay => exact h
  | clear => exact fun _ => ⟨[], rfl, rfl⟩
  | add es hphase hread hidx => exact fun _ => (h (.inl hphase)).addSamples hwrap hread hidx
  | divide hphase => exact fun _ => (h (.inl hphase)).of_vecRead (State.vecRead_congr _ _ fun _ _ _ => rfl) rfl rfl
  | format hphase =>
    exact fun _ => (h (.inr (.inl hphase))).of_vecRead (State.vecRead_congr _ _ fun _ _ _ => rfl) rfl rfl
  | write hphase =>
    intro hdone
    have hapart : s.OutApart := by simpa using hdone
    have hidx := hinv.regs.idx_le_len (by rw [hphase]; rfl)
    exact (h (.inr (.inr (.inl hphase)))).of_vecRead
      (State.vecRead_congr _ _ fun k _ hk => State.finish_sample hapart (by omega)) rfl rfl
  | start n => simp

/-- Settles O46: a quiet input leaves the vector alone, a reset leaves a PHASE that asks nothing, and each effect keeps
the sum; the inputs that remain are a tail of those that were quiet. -/
theorem stepKeepsSum : Obligations.StepKeepsSum := by
  unfold Obligations.StepKeepsSum
  intro s t hinv hsum hquiet hwrap hstep
  obtain ⟨-, -, -, hinputs, -⟩ := buildNeverChanges s t hstep
  refine ⟨?_, fun p hp => hquiet p (List.mem_of_mem_tail (hinputs ▸ hp))⟩
  obtain rfl | heff := step_effect hstep
  · simp [State.SumInv]
  · exact (hsum.afterInput hquiet.nextInput).of_effect hinv.afterInput hwrap heff

end Sys2Proof.Machine
end

section
/-! PROOFS of the state family, no hidden state (R29, R32, R34, R111): what is a function of the phase and of the
registers that phase reads is equal in two states that agree, and each effect leaves states that agree. -/

namespace Sys2Proof.Machine

/-! ### The phases that read a register -/

theorem sequencer_of_uopInstr {p : HostInput} {s : State} {i : Instr} (h : uopInstr p s = some i) :
    sequencer s = some i := by
  unfold uopInstr at h
  split_ifs at h
  exact h

theorem sumWord_ne_wr (c : Config.Params) (r : Nat) : sumWord c r ≠ .wr := by
  rcases sumWord_cases c r with ⟨-, h, -⟩ | ⟨-, -, -, h, -⟩ | ⟨-, -, -, h, -⟩ | ⟨-, -, h, -⟩ | ⟨-, h, -⟩ <;> simp [h]

theorem phase_of_sequencer_wr {s : State} (h : sequencer s = some .wr) : s.phase = .fmtd := by
  unfold sequencer at h
  cases hphase : s.phase with
  | fmtd => rfl
  | sum => simp [hphase, ite_eq_iff, sumWord_ne_wr] at h
  | _ => simp [hphase] at h

/-- RES is read by WR, in FMTD. -/
theorem phase_of_wrEn {p : HostInput} {s : State} (h : wrEn p s = true) : s.phase = .fmtd :=
  phase_of_sequencer_wr (sequencer_of_uopInstr (of_decide_eq_true h))

theorem phase_of_readCount {s : State} {i : Instr} (h : sequencer s = some i) (hcount : readCount s i ≠ 0) :
    s.phase = .sum := by
  unfold sequencer at h
  cases hphase : s.phase with
  | sum => rfl
  | _ => simp [hphase] at h; simp [← h, readCount] at hcount

theorem phase_of_requestCount {p : HostInput} {s : State} (h : requestCount p s ≠ 0) : s.phase = .sum := by
  unfold requestCount at h
  cases hi : uopInstr p s with
  | none => simp [hi] at h
  | some i => exact phase_of_readCount (sequencer_of_uopInstr hi) (by simpa [hi] using h)

/-- IDX stands on a port in SUM only. -/
theorem phase_of_rdReq {p : HostInput} {s : State} (h : rdReq p s = true) : s.phase = .sum :=
  phase_of_requestCount (of_decide_eq_true h)

section Agree

variable {s t : State} (h : s.Agree t)
include h

/-! ### What agreeing states have in common -/

theorem State.Agree.rem_eq (hphase : s.phase = .sum) : s.rem = t.rem := by
  rw [State.rem, State.rem, h.len_eq (.inr hphase), h.idx_eq hphase]

theorem State.Agree.nextInput_eq : s.nextInput = t.nextInput := by
  rw [State.nextInput, State.nextInput, h.inputs_eq]

theorem State.Agree.busy_eq : s.busy = t.busy := by
  rw [State.busy, State.busy, h.phase_eq]

theorem State.Agree.finished_eq : s.finished = t.finished := by
  rw [State.finished, State.finished, h.phase_eq]

theorem State.Agree.vecRead_eq (i n : Nat) : s.vecRead i n = t.vecRead i n :=
  State.vecRead_congr n i fun k _ _ => by rw [State.sample, State.sample, h.mem_eq, h.order_eq, h.handles_eq]

theorem State.Agree.sequencer_eq : sequencer s = sequencer t := by
  unfold sequencer
  rw [← h.phase_eq]
  cases hphase : s.phase with
  | sum => simp only [h.cfg_eq, h.len_eq (.inr hphase), h.idx_eq hphase, h.rem_eq hphase]
  | _ => rfl

theorem State.Agree.issuedWord_eq (p : HostInput) : issuedWord p s = issuedWord p t := by
  rw [issuedWord, issuedWord, issued, issued, h.busy_eq, h.sequencer_eq]

/-- R108: in SUM the conditions read IDX and LEN, which agree there; elsewhere they are decided by PHASE. -/
theorem State.Agree.issueOk_eq (i : Instr) : issueOk i s = issueOk i t := by
  by_cases hphase : s.phase = .sum
  · have htphase : t.phase = .sum := h.phase_eq ▸ hphase
    cases i <;>
      simp [issueOk, State.canNop, State.canClr, State.canAcc1, State.canAcc4, State.canAcc8, State.canVred,
        State.canDiv, State.canFmt, State.canWr, State.canStart, hphase, htphase, h.cfg_eq, h.rem_eq hphase,
        h.len_eq (.inr hphase), h.idx_eq hphase]
  · have htphase : t.phase ≠ .sum := h.phase_eq ▸ hphase
    cases i <;>
      simp [issueOk, State.canNop, State.canClr, State.canAcc1, State.canAcc4, State.canAcc8, State.canVred,
        State.canDiv, State.canFmt, State.canWr, State.canStart, htphase, h.phase_eq]

theorem State.Agree.readCount_eq (hphase : s.phase = .sum) (i : Instr) : readCount s i = readCount t i := by
  cases i with
  | vred => rw [readCount, readCount, State.vl, State.vl, h.rem_eq hphase, h.cfg_eq]
  | _ => rfl

/-! ### The ports -/

theorem State.Agree.uopInstr_eq (p : HostInput) : uopInstr p s = uopInstr p t := by
  rw [uopInstr, uopInstr, h.busy_eq, h.sequencer_eq]

theorem State.Agree.uopPort_eq (p : HostInput) : uopPort p s = uopPort p t := by
  rw [uopPort, uopPort, h.uopInstr_eq]

theorem State.Agree.requestCount_eq (p : HostInput) : requestCount p s = requestCount p t := by
  by_cases hphase : s.phase = .sum
  · rw [requestCount, requestCount, h.uopInstr_eq]
    cases uopInstr p t with
    | none => rfl
    | some i => exact h.readCount_eq hphase i
  · rw [not_ne_iff.mp (mt phase_of_requestCount hphase),
      not_ne_iff.mp (mt phase_of_requestCount (h.phase_eq ▸ hphase))]

theorem State.Agree.rdReq_eq (p : HostInput) : rdReq p s = rdReq p t := by
  rw [rdReq, rdReq, h.requestCount_eq]

theorem State.Agree.rdN_eq (p : HostInput) : rdN p s = rdN p t := by
  rw [rdN, rdN, h.rdReq_eq, h.requestCount_eq]

theorem State.Agree.rdIdx_eq (p : HostInput) : rdIdx p s = rdIdx p t := by
  rw [rdIdx, rdIdx, ← h.rdReq_eq]
  split
  case isTrue hreq => rw [h.idx_eq (phase_of_rdReq hreq)]
  case isFalse => rfl

theorem State.Agree.wrEn_eq (p : HostInput) : wrEn p s = wrEn p t := by
  rw [wrEn, wrEn, h.uopInstr_eq]

theorem State.Agree.wrData_eq (p : HostInput) : wrData p s = wrData p t := by
  rw [wrData, wrData, ← h.wrEn_eq]
  split
  case isTrue hen => rw [h.res_eq (phase_of_wrEn hen)]
  case isFalse => rfl

/-! ### The register writes, the reset and the host's input keep agreement -/

theorem State.Agree.clear_agree (hphase : s.phase = .init) : s.clear.Agree t.clear :=
  { h with
    phase_eq := rfl, len_eq := fun _ => h.len_eq (.inl hphase), acc_eq := fun _ => rfl, idx_eq := fun _ => rfl
    quo_eq := nofun, res_eq := nofun }

theorem State.Agree.addSamples_agree (hphase : s.phase = .sum) (es : List Sample) :
    (s.addSamples es).Agree (t.addSamples es) := by
  have hopen : s.overflowOpen es = t.overflowOpen es := by
    simp only [State.overflowOpen, State.leavesRange, h.cfg_eq, h.acc_eq hphase]
  exact
    { h with
      fresh_eq := by simp only [State.addSamples_fresh, State.nextFresh, hopen, h.fresh_eq]
      acc_eq := fun _ => by simp only [State.addSamples_acc, State.nextAcc, hopen, h.fresh_eq, h.acc_eq hphase]
      idx_eq := fun _ => by simp only [State.addSamples_idx, h.idx_eq hphase] }

theorem State.Agree.latchQuotient_agree (q : Word) : (s.latchQuotient q).Agree (t.latchQuotient q) :=
  { h with
    phase_eq := rfl, len_eq := nofun, acc_eq := nofun, idx_eq := nofun, quo_eq := fun _ => rfl, res_eq := nofun }

theorem State.Agree.latchResult_agree (r : Sample) : (s.latchResult r).Agree (t.latchResult r) :=
  { h with
    phase_eq := rfl, len_eq := nofun, acc_eq := nofun, idx_eq := nofun, quo_eq := nofun, res_eq := fun _ => rfl }

theorem State.Agree.finish_agree (hphase : s.phase = .fmtd) : s.finish.Agree t.finish :=
  { h with
    phase_eq := rfl, len_eq := nofun, acc_eq := nofun, idx_eq := nofun, quo_eq := nofun, res_eq := nofun
    mem_eq := by rw [State.finish_mem, State.finish_mem, h.mem_eq, h.order_eq, h.handles_eq, h.res_eq hphase] }

theorem State.Agree.latchLen_agree (n : Word) : (s.latchLen n).Agree (t.latchLen n) :=
  { h with
    phase_eq := rfl, len_eq := fun _ => rfl, acc_eq := nofun, idx_eq := nofun, quo_eq := nofun, res_eq := nofun }

theorem State.Agree.resetEvent_agree : s.resetEvent.Agree t.resetEvent :=
  { h with
    phase_eq := rfl, len_eq := nofun, acc_eq := nofun, idx_eq := nofun, quo_eq := nofun, res_eq := nofun
    fresh_eq := by rw [State.resetEvent_fresh, State.resetEvent_fresh, h.fresh_eq] }

theorem State.Agree.afterInput_agree : s.afterInput.Agree t.afterInput :=
  { h with
    handles_eq := by simp [h.nextInput_eq, h.handles_eq]
    mem_eq := by simp [h.nextInput_eq, h.mem_eq]
    inputs_eq := by simp [h.inputs_eq] }

end Agree

/-! ### The instructions and the step -/

theorem outcomeAgree_issueWhen {ok ok' : Bool} {o o' : Host.Outcome State Fault Refusal} (hok : ok = ok')
    (h : ok = true → OutcomeAgree o o') : OutcomeAgree (issueWhen ok o) (issueWhen ok' o') := by
  subst hok
  cases ok with
  | true => exact h rfl
  | false => exact rfl

/-- An accumulate word makes the same read in both states, and the lanes above it are ignored in both. -/
theorem State.Agree.accWord_agree {s t : State} (h : s.Agree t) {i : Instr}
    (hi : i = .acc1 ∨ i = .acc4 ∨ i = .acc8 ∨ i = .vred) : OutcomeAgree (exec i s) (exec i t) := by
  rw [exec_accWord hi, exec_accWord hi]
  refine outcomeAgree_issueWhen (h.issueOk_eq i) fun hok => ?_
  obtain ⟨hphase, -, hlanes⟩ := accWord_bounds hi hok
  have hcount := h.readCount_eq hphase i
  have hread : s.vecRead s.idx.toNat (readCount s i) = t.vecRead t.idx.toNat (readCount t i) := by
    rw [h.vecRead_eq, h.idx_eq hphase, hcount]
  cases hes : s.vecRead s.idx.toNat (readCount s i) with
  | none =>
    rw [accumulate_of_vecRead_none hes, accumulate_of_vecRead_none (hread ▸ hes)]
    exact rfl
  | some es =>
    rw [accumulate_of_vecRead hes hlanes, accumulate_of_vecRead (hread ▸ hes) (hcount ▸ h.cfg_eq ▸ hlanes)]
    exact h.addSamples_agree hphase es

theorem State.Agree.exec_agree {s t : State} (h : s.Agree t) (i : Instr) : OutcomeAgree (exec i s) (exec i t) := by
  have hok := h.issueOk_eq i
  cases i with
  | nop => exact outcomeAgree_issueWhen hok fun _ => h
  | clr => exact outcomeAgree_issueWhen hok fun hclr => h.clear_agree (State.canClr_iff.mp hclr)
  | acc1 => exact h.accWord_agree (by simp)
  | acc4 => exact h.accWord_agree (by simp)
  | acc8 => exact h.accWord_agree (by simp)
  | vred => exact h.accWord_agree (by simp)
  | div =>
    refine outcomeAgree_issueWhen hok fun hdiv => ?_
    obtain ⟨hphase, -⟩ := State.canDiv_iff.mp hdiv
    rw [← h.len_eq (.inr hphase), ← h.acc_eq hphase]
    split
    · exact rfl
    · exact h.latchQuotient_agree _
  | fmt =>
    refine outcomeAgree_issueWhen hok fun hfmt => ?_
    rw [← h.quo_eq (State.canFmt_iff.mp hfmt)]
    exact h.latchResult_agree _
  | wr => exact outcomeAgree_issueWhen hok fun hwr => h.finish_agree (State.canWr_iff.mp hwr)
  | start n =>
    have hstart : s.canStart = t.canStart := hok
    simp only [exec, execStart, ← hstart]
    split
    · exact h.latchLen_agree n
    · exact h

theorem State.Agree.step_agree {s t : State} (h : s.Agree t) : OutcomeAgree (step s) (step t) := by
  have hafter := h.afterInput_agree
  rw [step, step, stepWith, stepWith, ← h.nextInput_eq, ← hafter.issuedWord_eq]
  split
  · exact hafter.resetEvent_agree
  · cases hword : issuedWord s.nextInput s.afterInput with
    | none => exact rfl
    | some w =>
      obtain ⟨i, -, rfl⟩ := issuedWord_eq_some_iff.mp hword
      simp only [runWord_encode]
      exact hafter.exec_agree i

/-- R111: IDLE and DONE read none of the five data registers. -/
theorem State.agree_of_idle_or_done {s : State} (hphase : s.phase = .idle ∨ s.phase = .done) (a l i q : Word)
    (r : Sample) : s.Agree { s with acc := a, len := l, idx := i, quo := q, res := r } := by
  constructor <;> rcases hphase with hphase | hphase <;> simp [hphase]

/-- Settles O51: both states execute the same word, which reads only registers that agree in its phase, and so do the
ports. -/
theorem noHiddenState : Obligations.NoHiddenState := by
  unfold Obligations.NoHiddenState
  exact ⟨fun s t h => ⟨h.step_agree, h.busy_eq, h.finished_eq, fun p =>
      ⟨h.uopPort_eq p, h.rdIdx_eq p, h.rdN_eq p, h.wrEn_eq p, h.wrData_eq p⟩⟩,
    fun s a l i q r hphase => State.agree_of_idle_or_done hphase a l i q r⟩

end Sys2Proof.Machine
end

section
/-! PROOFS of the state family, the frame of each instruction (R29, R125) and the status levels (R28). -/

namespace Sys2Proof.Machine

/-- Settles O25: each of the eight things an instruction can do writes the fields its register write names (the laws of
Laws/State), and the accumulate case is one of four words. -/
theorem registerFrame : Obligations.RegisterFrame := by
  unfold Obligations.RegisterFrame
  intro i s t h
  obtain ⟨rfl, -, rfl⟩ | ⟨rfl, -, rfl⟩ | ⟨_, _, hword, -, rfl⟩ | ⟨rfl, -, -, rfl⟩ | ⟨rfl, -, rfl⟩ | ⟨rfl, -, rfl⟩ |
    ⟨_, rfl, -, rfl⟩ | ⟨_, rfl, -, rfl⟩ := of_exec_next h
  case inr.inr.inl => rcases hword with ⟨rfl, -⟩ | ⟨rfl, -⟩ | ⟨rfl, -⟩ | ⟨rfl, -⟩ <;> simp
  all_goals simp

/-- Settles O42, phase by phase. -/
theorem statusLevels : Obligations.StatusLevels := by
  unfold Obligations.StatusLevels
  intro s
  refine ⟨?_, ?_, rfl, rfl, rfl⟩
  · unfold State.busy
    cases s.phase <;> simp [Phase.busy]
  · unfold State.finished
    cases s.phase <;> simp [Phase.finished]

end Sys2Proof.Machine
end

section
/-! PROOFS of the memory family (spec/20_memory.md), the two spaces: what an element is in the environment's byte order
(R56), what the one write replaces (R54), which elements a multi-element read answers (R53). -/

namespace Sys2Proof.Machine

/-! ### The bytes of an element -/

@[simp] theorem sampleOfBytes_lowerByte_upperByte (order : Config.ByteOrder) (v : Sample) :
    sampleOfBytes order (lowerByte order v) (upperByte order v) = v := by
  have happend : v.extractLsb' 8 8 ++ v.extractLsb' 0 8 = v :=
    calc v.extractLsb' 8 8 ++ v.extractLsb' 0 8
        = v.extractLsb' 0 16 :=
          BitVec.extractLsb'_append_extractLsb'_eq_extractLsb' (start₁ := 0) (len₁ := 8) rfl
      _ = v := BitVec.extractLsb'_eq_self
  cases order <;> exact happend

theorem sampleOfBytes_little_toNat (b0 b1 : Byte) :
    (sampleOfBytes .little b0 b1).toNat = b0.toNat + 256 * b1.toNat := by
  rw [sampleOfBytes, BitVec.toNat_append, ← Nat.shiftLeft_add_eq_or_of_lt b0.isLt, Nat.shiftLeft_eq]
  omega

theorem sampleOfBytes_big_toNat (b0 b1 : Byte) :
    (sampleOfBytes .big b0 b1).toNat = 256 * b0.toNat + b1.toNat := by
  rw [sampleOfBytes, BitVec.toNat_append, ← Nat.shiftLeft_add_eq_or_of_lt b1.isLt, Nat.shiftLeft_eq]
  omega

theorem lowerByte_little (v : Sample) : lowerByte .little v = BitVec.ofNat 8 v.toNat := rfl

theorem upperByte_big (v : Sample) : upperByte .big v = BitVec.ofNat 8 v.toNat := rfl

theorem lowerByte_big (v : Sample) : lowerByte .big v = BitVec.ofNat 8 (v.toNat / 256) :=
  congrArg (BitVec.ofNat 8) (Nat.shiftRight_eq_div_pow v.toNat 8)

theorem upperByte_little (v : Sample) : upperByte .little v = BitVec.ofNat 8 (v.toNat / 256) :=
  congrArg (BitVec.ofNat 8) (Nat.shiftRight_eq_div_pow v.toNat 8)

theorem Memory.read16_of_read {m : Memory} {a : Nat} {b0 b1 : Byte} (order : Config.ByteOrder)
    (h0 : Memory.read m a = some b0) (h1 : Memory.read m (a + 1) = some b1) :
    Memory.read16 m order a = some (sampleOfBytes order b0 b1) := by
  simp [Memory.read16, h0, h1]

theorem Memory.read_write16_lower (m : Memory) (order : Config.ByteOrder) (a : Nat) (v : Sample) :
    Memory.read (Memory.write16 m order a v) a = some (lowerByte order v) := by
  simp [Memory.read_write16]

theorem Memory.read_write16_upper (m : Memory) (order : Config.ByteOrder) (a : Nat) (v : Sample) :
    Memory.read (Memory.write16 m order a v) (a + 1) = some (upperByte order v) := by
  simp [Memory.read_write16]

theorem Memory.read_write16_other (m : Memory) (order : Config.ByteOrder) {a x : Nat} (v : Sample)
    (h0 : x ≠ a) (h1 : x ≠ a + 1) : Memory.read (Memory.write16 m order a v) x = Memory.read m x := by
  rw [Memory.read_write16, if_neg h1, if_neg h0]

/-- R54: what is written is what is read back. -/
theorem Memory.read16_write16 (m : Memory) (order : Config.ByteOrder) (a : Nat) (v : Sample) :
    Memory.read16 (Memory.write16 m order a v) order a = some v := by
  rw [Memory.read16_of_read order (Memory.read_write16_lower ..) (Memory.read_write16_upper ..),
    sampleOfBytes_lowerByte_upperByte]

/-! ### The two spaces -/

/-- Settles O28: the slot's two bytes are those of the pattern in the environment's order. -/
theorem outWriteReplacesSlot : Obligations.OutWriteReplacesSlot := by
  unfold Obligations.OutWriteReplacesSlot
  intro s v
  simp only [State.outWrite_mem, Memory.read_write16_lower, Memory.read_write16_upper]
  refine ⟨Memory.read16_write16 .., fun horder => ?_, fun horder => ?_, fun hwf => Memory.write16_wf hwf ..,
    fun a h0 h1 => Memory.read_write16_other _ _ v h0 h1⟩
  · rw [horder, lowerByte_little, upperByte_little]
    exact ⟨rfl, rfl⟩
  · rw [horder, lowerByte_big, upperByte_big]
    exact ⟨rfl, rfl⟩

/-- Settles O29: the element is what its two answered bytes form. -/
theorem sampleByteMapping : Obligations.SampleByteMapping := by
  unfold Obligations.SampleByteMapping
  intro s i b0 b1 h0 h1
  refine ⟨_, Memory.read16_of_read s.order h0 h1, fun horder => ?_, fun horder => ?_⟩
  · rw [horder, sampleOfBytes_little_toNat]
  · rw [horder, sampleOfBytes_big_toNat]

/-- Settles O26: an instruction that changes memory is WR, whose write spares every byte outside the slot. -/
theorem memoryFrame : Obligations.MemoryFrame := by
  unfold Obligations.MemoryFrame
  intro i s t h
  obtain hmem | ⟨hwr, -, rfl⟩ := exec_mem_eq_or_wr h
  · simp [hmem]
  · exact ⟨absurd hwr, fun _ a h0 h1 => Memory.read_write16_other _ _ _ h0 h1⟩

/-! ### The multi-element read -/

theorem State.vecRead_succ_eq_some_iff {s : State} {i n : Nat} {e : Sample} {es : List Sample} :
    s.vecRead i (n + 1) = some (e :: es) ↔ s.sample i = some e ∧ s.vecRead (i + 1) n = some es := by
  rw [State.vecRead]
  split
  case h_1 e' es' he hes => simp [he, hes]
  case h_2 hnone => simpa using hnone e es

/-- Settles O30, by induction on the number of elements: the first element is the head, the read of the others starts
one index later. -/
theorem vecReadReturnsElements : Obligations.VecReadReturnsElements := by
  unfold Obligations.VecReadReturnsElements
  intro s i n es
  induction n generalizing i es with
  | zero => simp [State.vecRead, eq_comm (a := []), List.length_eq_zero_iff]
  | succ n ih =>
    cases es with
    | nil =>
      have hlength : s.vecRead i (n + 1) ≠ some [] := fun h => by simpa using State.length_of_vecRead h
      simp [hlength]
    | cons e es =>
      have hshift (k : Nat) : s.sample (i + (k + 1)) = s.sample (i + 1 + k) := by rw [Nat.add_right_comm, Nat.add_assoc]
      rw [State.vecRead_succ_eq_some_iff, ih, Nat.forall_lt_succ_left]
      simp only [hshift, List.length_cons, Nat.add_right_cancel_iff, Nat.add_zero, List.getElem?_cons_zero,
        List.getElem?_cons_succ]
      exact and_left_comm

end Sys2Proof.Machine
end

section
/-! PROOFS of the memory family, the reads of a step: a read that is not answered (R68), the reads of an issued word
inside the vector (R53, R110), the lanes of the beat and of the data port (R55, R81). -/

namespace Sys2Proof.Machine

/-! ### The reads of an issued word -/

/-- Settles O15: the accumulate words are one guarded step, which stops where the read is not answered. -/
theorem unansweredReadIsStuck : Obligations.UnansweredReadIsStuck := by
  unfold Obligations.UnansweredReadIsStuck
  intro s i hok hi hread
  rw [exec_accWord hi, hok, issueWhen_true, accumulate_of_vecRead_none hread]

theorem accWord_of_readCount {s : State} {i : Instr} (h : readCount s i ≠ 0) :
    i = .acc1 ∨ i = .acc4 ∨ i = .acc8 ∨ i = .vred := by
  cases i <;> simp [readCount] at h ⊢

/-- R108: an accumulate word is issued only where a sample is left, and VLMAX is at least 1. -/
theorem one_le_readCount {s : State} {i : Instr} (hi : i = .acc1 ∨ i = .acc4 ∨ i = .acc8 ∨ i = .vred)
    (hok : issueOk i s = true) : 1 ≤ readCount s i := by
  rcases hi with rfl | rfl | rfl | rfl
  case inr.inr.inr =>
    simp only [issueOk, State.canVred, Bool.and_eq_true, decide_eq_true_eq] at hok
    obtain ⟨⟨-, hrem⟩, -⟩ := hok
    exact le_min hrem s.cfg.vlmax.2
  all_goals simp [readCount]

/-- Settles O18: a word that reads is an accumulate word, whose issue condition bounds its read. -/
theorem readsStayInsideVector : Obligations.ReadsStayInsideVector := by
  unfold Obligations.ReadsStayInsideVector
  intro s i hok
  refine ⟨fun hcount => ?_, fun hi => one_le_readCount hi hok⟩
  obtain ⟨-, hidx, hlanes⟩ := accWord_bounds (accWord_of_readCount hcount) hok
  exact ⟨hidx, hlanes⟩

/-- R103, R108: in SUM with samples left the accumulate word is issued under its condition, and reads as many
elements as R27 says. -/
theorem sumWord_issued {s : State} (hphase : s.phase = .sum) (hidx : s.idx.toNat < s.len.toNat) :
    issueOk (sumWord s.cfg s.rem) s = true ∧ readCount s (sumWord s.cfg s.rem) = sumCount s.cfg s.rem := by
  have hrem : 1 ≤ s.rem := by unfold State.rem; omega
  rcases sumWord_cases s.cfg s.rem with ⟨hstrat, hword, hcount⟩ | ⟨hstrat, hgroup, hleft, hword, hcount⟩ |
    ⟨hstrat, hgroup, hleft, hword, hcount⟩ | ⟨hstrat, hleft, hword, hcount⟩ | ⟨hstrat, hword, hcount⟩
  · simp [issueOk, State.canAcc1, readCount, *]
  · simp [issueOk, State.canAcc4, readCount, *]
  · simp [issueOk, State.canAcc8, readCount, *]
  · simp [issueOk, State.canAcc1, readCount, *]
  · simp [issueOk, State.canVred, readCount, State.vl, *]

theorem sumWord_accWord (c : Config.Params) (r : Nat) :
    sumWord c r = .acc1 ∨ sumWord c r = .acc4 ∨ sumWord c r = .acc8 ∨ sumWord c r = .vred := by
  rcases sumWord_cases c r with ⟨-, h, -⟩ | ⟨-, -, -, h, -⟩ | ⟨-, -, -, h, -⟩ | ⟨-, -, h, -⟩ | ⟨-, h, -⟩ <;> simp [h]

/-- R92, R108: what the sequencer chooses is issued under its condition. -/
theorem issueOk_of_sequencer {s : State} {i : Instr} (h : sequencer s = some i) : issueOk i s = true := by
  unfold sequencer at h
  cases hphase : s.phase with
  | sum =>
    simp only [hphase] at h
    split_ifs at h with hdiv hsum
    · cases h
      exact State.canDiv_iff.mpr ⟨hphase, hdiv⟩
    · cases h
      exact (sumWord_issued hphase hsum).1
  | _ =>
    simp only [hphase, Option.some.injEq] at h
    subst h
    simp [issueOk, State.canNop, State.canClr, State.canFmt, State.canWr, hphase]

/-- R81: a step that requests elements requests what its word reads, which the port holds. -/
theorem requestCount_le_laneCount {p : HostInput} {s : State} (h : rdReq p s = true) :
    requestCount p s ≤ laneCount s.cfg := by
  have hcount : requestCount p s ≠ 0 := of_decide_eq_true h
  unfold requestCount at hcount ⊢
  cases hi : uopInstr p s with
  | none => exact Nat.zero_le _
  | some i =>
    simp only [hi] at hcount ⊢
    exact ((readsStayInsideVector s i (issueOk_of_sequencer (sequencer_of_uopInstr hi))).1 hcount).2

/-! ### The lanes -/

theorem lanes_getElem? {w n k : Nat} (b : BitVec w) (hk : k < n) : (lanes b n)[k]? = some (lane b k) := by
  simp [lanes, hk]

/-- Settles O31: entry k of the lanes of a beat is its lane k, and the lanes are the elements. -/
theorem laneOfBeatIsElement : Obligations.LaneOfBeatIsElement := by
  unfold Obligations.LaneOfBeatIsElement
  intro es
  refine ⟨fun k e he => ?_, lanes_beat es⟩
  have hk : k < es.length := (List.getElem?_eq_some_iff.mp he).1
  have hlane : (lanes (beat es) es.length)[k]? = some (lane (beat es) k) := lanes_getElem? _ hk
  rw [lanes_beat, he, Option.some_inj] at hlane
  exact hlane.symm

/-- Above the elements of a read the lanes of the port are the environment's, from its lowest bits on (U17). -/
theorem lane_readBeat_add_length {s : State} {es : List Sample} {j : Nat} (h : es.length + j < laneCount s.cfg) :
    lane (s.readBeat es) (es.length + j) = BitVec.ofNat 16 (s.rdSpare / 2 ^ (16 * j)) := by
  apply BitVec.eq_of_getLsbD_eq
  intro i hi
  have hport : 16 * (es.length + j) + i < 16 * laneCount s.cfg := by omega
  have hshifted : 16 * j + i < 16 * laneCount s.cfg := by omega
  have hbeat : (beat es).getLsbD (16 * (es.length + j) + i) = false := BitVec.getLsbD_of_ge _ _ (by omega)
  have habove : ¬ 16 * (es.length + j) + i < 16 * es.length := by omega
  have hspare : 16 * (es.length + j) + i - 16 * es.length = 16 * j + i := by omega
  simp [lane, State.readBeat, hi, hport, hbeat, habove, hspare, hshifted, -BitVec.getLsbD_eq_getElem,
    BitVec.getLsbD_ofNat, Nat.testBit_div_two_pow, Nat.add_comm i]

/-- Settles O32: the elements of an acknowledged read fit the port, so the lowest lanes cut from it are they. -/
theorem dataPortLanes : Obligations.DataPortLanes := by
  unfold Obligations.DataPortLanes
  refine ⟨fun s es h => ⟨lanes_readBeat h, fun j hj => lane_readBeat_add_length hj⟩, fun p s hack => ?_⟩
  obtain ⟨hreq, hanswered⟩ := Bool.and_eq_true_iff.mp hack
  obtain ⟨es, hread⟩ := Option.isSome_iff_exists.mp hanswered
  refine ⟨s.readBeat es, requestCount p s, es, ?_, ?_, hread, ?_⟩
  · simp [rdData, hread, hreq]
  · simp [rdN, hreq]
  · have hlength := State.length_of_vecRead hread
    rw [← hlength]
    exact lanes_readBeat (hlength ▸ requestCount_le_laneCount hreq)

end Sys2Proof.Machine
end

section
/-! PROOFS of the memory family, the steps of an invocation phase by phase (R101, R103): which register write each one
makes when the block is not reset. -/

namespace Sys2Proof.Machine

theorem step_of_issued {s : State} {i : Instr} (hrst : s.nextInput.rst = false)
    (hissued : issued s.nextInput s.afterInput = some i) : step s = exec i s.afterInput := by
  have hword : issuedWord s.nextInput s.afterInput = some (encode i) := issuedWord_eq_some_iff.mpr ⟨i, hissued, rfl⟩
  rw [step, stepWith, if_neg (by simp [hrst]), hword]
  exact runWord_encode i _

/-- R102, R103: a busy block that is not reset executes the sequencer's word, which the input does not choose. -/
theorem step_of_busy {s : State} {i : Instr} (hbusy : s.busy = true) (hrst : s.nextInput.rst = false)
    (hseq : sequencer s = some i) : step s = exec i s.afterInput :=
  step_of_issued hrst ((issued_of_busy hbusy _).trans hseq)

theorem State.canStart_iff {s : State} : s.canStart = true ↔ s.phase = .idle ∨ s.phase = .done := by
  simp [State.canStart]

section Phases

variable {s : State} (hrst : s.nextInput.rst = false)

include hrst

/-- R101: a START presented in IDLE or DONE latches LEN. -/
theorem step_start (hphase : s.phase = .idle ∨ s.phase = .done) (hstart : s.nextInput.start = true) :
    step s = .next (s.afterInput.latchLen s.nextInput.len) := by
  have hbusy : s.afterInput.busy = false := by
    rcases hphase with hphase | hphase <;> simp [State.busy, Phase.busy, hphase]
  have hcan : s.afterInput.canStart = true := State.canStart_iff.mpr hphase
  rw [step_of_issued hrst (i := .start s.nextInput.len) (by simp [issued, hstart, hbusy]), exec, execStart, if_pos hcan]

theorem step_init (hphase : s.phase = .init) : step s = .next s.afterInput.clear := by
  have hcan : s.afterInput.canClr = true := State.canClr_iff.mpr hphase
  have hseq : sequencer s = some .clr := by simp [sequencer, hphase]
  rw [step_of_busy (by rw [State.busy, hphase]; rfl) hrst hseq, exec, execClr, hcan, issueWhen_true]

/-- R103: in SUM with samples left a step is the accumulate step over as many elements as R27 says. -/
theorem step_add (hphase : s.phase = .sum) (hidx : s.idx.toNat < s.len.toNat) :
    step s = accumulate (sumCount s.cfg s.rem) s.afterInput := by
  obtain ⟨hok, hcount⟩ := sumWord_issued (s := s.afterInput) hphase hidx
  have hword : sequencer s = some (sumWord s.afterInput.cfg s.afterInput.rem) := sequencer_sum hphase hidx
  rw [step_of_busy (by rw [State.busy, hphase]; rfl) hrst hword, exec_accWord (sumWord_accWord _ _), hok, hcount,
    issueWhen_true]
  rfl

/-- R140, R192: in SUM with every sample added a step divides, or faults where the vector is empty. -/
theorem step_divide (hphase : s.phase = .sum) (hidx : s.idx = s.len) :
    step s = if s.len = 0#32 then .fault .divideByZero
      else .next (s.afterInput.latchQuotient (quotient s.acc s.len)) := by
  have hcan : s.afterInput.canDiv = true := State.canDiv_iff.mpr ⟨hphase, hidx⟩
  rw [step_of_busy (by rw [State.busy, hphase]; rfl) hrst (sequencer_div hphase hidx), exec, execDiv, hcan,
    issueWhen_true]
  rfl

theorem step_format (hphase : s.phase = .divd) : step s = .next (s.afterInput.latchResult (narrow s.quo)) := by
  have hcan : s.afterInput.canFmt = true := State.canFmt_iff.mpr hphase
  have hseq : sequencer s = some .fmt := by simp [sequencer, hphase]
  rw [step_of_busy (by rw [State.busy, hphase]; rfl) hrst hseq, exec, execFmt, hcan, issueWhen_true]
  rfl

theorem step_write (hphase : s.phase = .fmtd) : step s = .next s.afterInput.finish := by
  have hcan : s.afterInput.canWr = true := State.canWr_iff.mpr hphase
  have hseq : sequencer s = some .wr := by simp [sequencer, hphase]
  rw [step_of_busy (by rw [State.busy, hphase]; rfl) hrst hseq, exec, execWr, hcan, issueWhen_true]

/-- A step in SUM with samples left that answers a next state adds as many samples as R27 says. -/
theorem of_step_add {t : State} (hphase : s.phase = .sum) (hidx : s.idx.toNat < s.len.toNat) (h : step s = .next t) :
    ∃ es, es.length = sumCount s.cfg s.rem ∧ t = s.afterInput.addSamples es := by
  rw [step_add hrst hphase hidx] at h
  obtain ⟨es, -, ht⟩ := of_accumulate_next h
  exact ⟨_, by simp [lanes], ht⟩

end Phases

/-! ### What a step reads and writes -/

theorem readIndices_eq_nil {p : HostInput} {s : State} (h : s.phase ≠ .sum) : readIndices p s = [] := by
  have hcount : requestCount p s = 0 := by_contra fun hcount => h (phase_of_requestCount hcount)
  rw [readIndices, hcount, List.range'_zero]

theorem wrData_eq_none {p : HostInput} {s : State} (h : s.phase ≠ .fmtd) : wrData p s = none :=
  if_neg (mt phase_of_wrEn h)

/-- R110: the indices a busy block reads in a step are those its word asks for, from IDX on. -/
theorem readIndices_of_busy {p : HostInput} {s : State} {i : Instr} (hbusy : s.busy = true) (hrst : p.rst = false)
    (hseq : sequencer s = some i) : readIndices p s = List.range' s.idx.toNat (readCount s i) := by
  simp [readIndices, requestCount, uopInstr, hrst, hbusy, hseq]

theorem readIndices_add {p : HostInput} {s : State} (hrst : p.rst = false) (hphase : s.phase = .sum)
    (hidx : s.idx.toNat < s.len.toNat) : readIndices p s = List.range' s.idx.toNat (sumCount s.cfg s.rem) := by
  rw [readIndices_of_busy (by rw [State.busy, hphase]; rfl) hrst (sequencer_sum hphase hidx),
    (sumWord_issued hphase hidx).2]

theorem readIndices_divide {p : HostInput} {s : State} (hrst : p.rst = false) (hphase : s.phase = .sum)
    (hidx : s.idx = s.len) : readIndices p s = [] :=
  readIndices_of_busy (by rw [State.busy, hphase]; rfl) hrst (sequencer_div hphase hidx)

end Sys2Proof.Machine
end

section
/-! PROOFS of the memory family, an invocation as it is under way: how many steps and which reads are still to come, and
that each step of a busy block takes one step and its own reads off them (R104 to R107, R110, R234). -/

namespace Sys2Proof.Machine

/-! ### What is still to come -/

/-- The number of steps until DONE, for a block that is not reset and whose reads are answered (R234). -/
def State.stepsToDone (s : State) : Nat :=
  match s.phase with
  | .idle => 0
  | .init => sumSteps s.cfg s.len.toNat + 4
  | .sum => sumSteps s.cfg s.rem + 3
  | .divd => 2
  | .fmtd => 1
  | .done => 0

/-- The indices of the elements this invocation has still to read, in order (R110). -/
def State.readsToCome (s : State) : List Nat :=
  match s.phase with
  | .idle => []
  | .init => List.range s.len.toNat
  | .sum => List.range' s.idx.toNat s.rem
  | .divd => []
  | .fmtd => []
  | .done => []

/-- The host and the environment keep still (R224), and IDX has not passed LEN (R31(a)). -/
structure State.UnderWay (s : State) : Prop where
  steady : ∀ p ∈ s.inputs, p.Steady
  idx_le_len : s.phase = .sum → s.idx.toNat ≤ s.len.toNat

theorem State.busy_iff_stepsToDone_pos {s : State} : s.busy = true ↔ 1 ≤ s.stepsToDone := by
  unfold State.busy State.stepsToDone
  cases s.phase <;> simp [Phase.busy]

theorem State.phase_ne_fmtd_of_stepsToDone {s : State} (h : 2 ≤ s.stepsToDone) : s.phase ≠ .fmtd := by
  intro hphase
  simp [State.stepsToDone, hphase] at h

theorem Phase.finished_of_busy {p : Phase} : p.busy = true → p.finished = false := by
  cases p <;> decide

theorem State.readsToCome_of_stepsToDone {s : State} : s.stepsToDone = 0 → s.readsToCome = [] := by
  unfold State.stepsToDone State.readsToCome
  cases s.phase <;> simp

/-! ### One step -/

/-- What a step of an invocation leaves to come. -/
structure State.Advance (s t : State) : Prop where
  underWay : t.UnderWay
  len_eq : t.len = s.len
  steps : t.stepsToDone + 1 = s.stepsToDone
  reads : readIndices s.nextInput s.afterInput ++ t.readsToCome = s.readsToCome

theorem State.addSamples_rem {s : State} {es : List Sample} (h : s.idx.toNat + es.length ≤ s.len.toNat) :
    (s.addSamples es).rem = s.rem - es.length := by
  rw [State.rem, State.addSamples_idx_toNat h, State.addSamples_len, State.rem, Nat.sub_add_eq]

/-- R110, R234: an accumulate step takes the elements it reads off those to come. -/
theorem State.advance_addSamples {s : State} {es : List Sample} (h : s.UnderWay) (hphase : s.phase = .sum)
    (hidx : s.idx.toNat < s.len.toNat) (hes : es.length = sumCount s.cfg s.rem) :
    s.Advance (s.afterInput.addSamples es) := by
  have hrem : s.rem = s.len.toNat - s.idx.toNat := rfl
  obtain ⟨-, hle⟩ := sumCount_bounds s.cfg (r := s.rem) (by omega)
  have hend : s.idx.toNat + es.length ≤ s.len.toNat := by omega
  have hidx' : (s.afterInput.addSamples es).idx.toNat = s.idx.toNat + es.length := State.addSamples_idx_toNat hend
  have hrem' : (s.afterInput.addSamples es).rem = s.rem - es.length := State.addSamples_rem hend
  have hread : readIndices s.nextInput s.afterInput = List.range' s.idx.toNat es.length :=
    hes ▸ readIndices_add (State.nextInput_steady h.steady).1 hphase hidx
  have hphase' : (s.afterInput.addSamples es).phase = .sum := hphase
  refine ⟨⟨State.afterInput_steady h.steady, fun _ => hidx'.trans_le hend⟩, rfl, ?_, ?_⟩
  · simp only [State.stepsToDone, hphase, hphase', hrem', hes]
    have := sumSteps_rec s.cfg (r := s.rem) (by omega)
    show sumSteps s.cfg _ + 3 + 1 = _
    omega
  · simp only [State.readsToCome, hphase, hphase', hrem', hread, hidx', List.range'_append_1]
    congr 1
    omega

theorem State.UnderWay.advance {s t : State} (h : s.UnderWay) (hbusy : s.busy = true) (hstep : step s = .next t) :
    s.Advance t := by
  have hrst := (State.nextInput_steady h.steady).1
  have hsteady := State.afterInput_steady h.steady
  have hnil := readIndices_eq_nil (p := s.nextInput) (s := s.afterInput)
  cases hphase : s.phase with
  | idle => simp [State.busy, Phase.busy, hphase] at hbusy
  | done => simp [State.busy, Phase.busy, hphase] at hbusy
  | init =>
    rw [step_init hrst hphase] at hstep
    cases hstep
    refine ⟨⟨hsteady, fun _ => Nat.zero_le _⟩, rfl, ?_, ?_⟩
    · simp [State.stepsToDone, hphase, State.rem]
    · simp [State.readsToCome, hphase, State.rem, hnil, List.range_eq_range']
  | sum =>
    obtain hlt | heq := Nat.lt_or_eq_of_le (h.idx_le_len hphase)
    · obtain ⟨es, hes, rfl⟩ := of_step_add hrst hphase hlt hstep
      exact State.advance_addSamples h hphase hlt hes
    · have hidx := BitVec.eq_of_toNat_eq heq
      rw [step_divide hrst hphase hidx] at hstep
      split at hstep
      · cases hstep
      · cases hstep
        refine ⟨⟨hsteady, nofun⟩, rfl, ?_, ?_⟩
        · simp [State.stepsToDone, hphase, State.rem, hidx]
        · have hread := readIndices_divide (s := s.afterInput) hrst hphase hidx
          simp [State.readsToCome, hphase, State.rem, hidx, hread]
  | divd =>
    rw [step_format hrst hphase] at hstep
    cases hstep
    exact ⟨⟨hsteady, nofun⟩, rfl, by simp [State.stepsToDone, hphase], by simp [State.readsToCome, hphase, hnil]⟩
  | fmtd =>
    rw [step_write hrst hphase] at hstep
    cases hstep
    exact ⟨⟨hsteady, nofun⟩, rfl, by simp [State.stepsToDone, hphase], by simp [State.readsToCome, hphase, hnil]⟩

/-- In a steady environment a step of an invocation before WR leaves memory as it was, and the handles with it. -/
theorem State.UnderWay.step_keeps_memory {s t : State} (h : s.UnderWay) (hphase : s.phase ≠ .fmtd)
    (hstep : step s = .next t) : t.mem = s.mem ∧ t.handles = s.handles ∧ t.order = s.order := by
  obtain ⟨-, hquiet⟩ := State.nextInput_steady h.steady
  obtain ⟨-, horder, hhandles, -, hmem⟩ := buildNeverChanges s t hstep
  rw [State.afterInput_of_quiet hquiet] at hhandles hmem
  exact ⟨hmem hphase, hhandles, horder⟩

end Sys2Proof.Machine
end

section
/-! PROOFS of the memory family, the run of an invocation: what any run has read and written so far, that an answered
one reaches DONE, and the two statements about the run from START on (R51, R58, R61, R110). -/

namespace Sys2Proof.Machine

/-! ### Runs -/

/-- What `k` steps of an invocation leave to come, and that before WR they have written nothing. -/
structure State.Ran (k : Nat) (s t : State) : Prop where
  steps : t.stepsToDone + k = s.stepsToDone
  reads : runReads k s ++ t.readsToCome = s.readsToCome
  mem : k < s.stepsToDone → t.mem = s.mem
  writes : k < s.stepsToDone → runWrites k s = []

theorem State.UnderWay.ran {s t : State} {k : Nat} (h : s.UnderWay) (hk : k ≤ s.stepsToDone)
    (hrun : runSteps k s = .next t) : s.Ran k t := by
  induction k generalizing s with
  | zero =>
    cases hrun
    exact ⟨rfl, rfl, fun _ => rfl, fun _ => rfl⟩
  | succ k ih =>
    have hbusy : s.busy = true := State.busy_iff_stepsToDone_pos.mpr (by omega)
    cases hstep : step s with
    | next u =>
      obtain ⟨hunder, -, hsteps, hreads⟩ := h.advance hbusy hstep
      obtain ⟨hsteps', hreads', hmem', hwrites'⟩ := ih hunder (by omega) (by simpa [runSteps, hstep] using hrun)
      refine ⟨by omega, ?_, fun hlt => ?_, fun hlt => ?_⟩
      · simp only [runReads, hstep, List.append_assoc, hreads', hreads]
      · exact (hmem' (by omega)).trans
          (h.step_keeps_memory (State.phase_ne_fmtd_of_stepsToDone (by omega)) hstep).1
      · have hphase : s.afterInput.phase ≠ .fmtd := State.phase_ne_fmtd_of_stepsToDone (s := s) (by omega)
        simp [runWrites, hstep, wrData_eq_none hphase, hwrites' (by omega)]
    | fault f => simp [runSteps, hstep] at hrun
    | refused r => simp [runSteps, hstep] at hrun

/-! ### Reaching DONE -/

theorem State.exists_vecRead {s : State} {i n : Nat} (h : ∀ k ∈ List.range' i n, (s.sample k).isSome = true) :
    ∃ es, s.vecRead i n = some es := by
  induction n generalizing i with
  | zero => exact ⟨[], rfl⟩
  | succ n ih =>
    rw [List.range'_succ, List.forall_mem_cons] at h
    obtain ⟨e, he⟩ := Option.isSome_iff_exists.mp h.1
    obtain ⟨es, hes⟩ := ih h.2
    exact ⟨e :: es, State.vecRead_succ_eq_some_iff.mpr ⟨he, hes⟩⟩

theorem State.sample_isSome_of_vecRead {s : State} {n : Nat} {es : List Sample} (h : s.vecRead 0 n = some es) :
    ∀ k ∈ List.range n, (s.sample k).isSome = true := by
  intro k hk
  obtain ⟨hlength, hsample⟩ := (vecReadReturnsElements s 0 n es).mp h
  have hk := List.mem_range.mp hk
  have hk' := hsample k hk
  rw [Nat.zero_add] at hk'
  simp [hk', hlength, hk]

theorem State.vecRead_afterInput_of_quiet {s : State} (h : s.nextInput.Quiet) (i n : Nat) :
    s.afterInput.vecRead i n = s.vecRead i n := by
  rw [State.afterInput_of_quiet h]
  exact State.vecRead_congr _ _ fun _ _ _ => rfl

/-- R68: the elements of the next accumulate step are among those to come, so the step is answered. -/
theorem State.UnderWay.exists_step_add {s : State} (h : s.UnderWay) (hphase : s.phase = .sum)
    (hidx : s.idx.toNat < s.len.toNat) (hanswered : ∀ k ∈ s.readsToCome, (s.sample k).isSome = true) :
    ∃ t, step s = .next t := by
  obtain ⟨hrst, hquiet⟩ := State.nextInput_steady h.steady
  have hrem : s.rem = s.len.toNat - s.idx.toNat := rfl
  obtain ⟨-, hle⟩ := sumCount_bounds s.cfg (r := s.rem) (by omega)
  obtain ⟨es, hread⟩ : ∃ es, s.vecRead s.idx.toNat (sumCount s.cfg s.rem) = some es := by
    refine State.exists_vecRead fun k hk => hanswered k ?_
    simp only [State.readsToCome, hphase, List.mem_range'_1] at hk ⊢
    omega
  rw [step_add hrst hphase hidx, accumulate, State.vecRead_afterInput_of_quiet hquiet, State.afterInput_idx, hread]
  exact ⟨_, rfl⟩

/-- R109: a busy block whose elements to come are answered, and whose vector is not empty, takes its next step. -/
theorem State.UnderWay.exists_step {s : State} (h : s.UnderWay) (hbusy : s.busy = true) (hlen : 1 ≤ s.len.toNat)
    (hanswered : ∀ k ∈ s.readsToCome, (s.sample k).isSome = true) : ∃ t, step s = .next t := by
  have hrst := (State.nextInput_steady h.steady).1
  cases hphase : s.phase with
  | idle => simp [State.busy, Phase.busy, hphase] at hbusy
  | done => simp [State.busy, Phase.busy, hphase] at hbusy
  | init => exact ⟨_, step_init hrst hphase⟩
  | sum =>
    obtain hlt | heq := Nat.lt_or_eq_of_le (h.idx_le_len hphase)
    · exact h.exists_step_add hphase hlt hanswered
    · have hpos : s.len ≠ 0#32 := fun hzero => by simp [hzero] at hlen
      exact ⟨_, (step_divide hrst hphase (BitVec.eq_of_toNat_eq heq)).trans (if_neg hpos)⟩
  | divd => exact ⟨_, step_format hrst hphase⟩
  | fmtd => exact ⟨_, step_write hrst hphase⟩

/-- The elements still to come after a step were to come before it, and memory answers them as it did: only WR writes,
and nothing is to come then. -/
theorem State.UnderWay.answered_step {s t : State} (h : s.UnderWay) (hadvance : s.Advance t) (hstep : step s = .next t)
    (hanswered : ∀ k ∈ s.readsToCome, (s.sample k).isSome = true) :
    ∀ k ∈ t.readsToCome, (t.sample k).isSome = true := by
  intro k hk
  have hk' : k ∈ s.readsToCome := hadvance.reads ▸ List.mem_append_right _ hk
  have hphase : s.phase ≠ .fmtd := fun hphase => by simp [State.readsToCome, hphase] at hk'
  obtain ⟨hmem, hhandles, horder⟩ := h.step_keeps_memory hphase hstep
  rw [State.sample, hmem, hhandles, horder]
  exact hanswered k hk'

/-- R109, R234: an invocation whose elements to come are answered runs to DONE. -/
theorem State.UnderWay.exists_run {s : State} (h : s.UnderWay) (hlen : 1 ≤ s.len.toNat)
    (hanswered : ∀ k ∈ s.readsToCome, (s.sample k).isSome = true) : ∃ t, runSteps s.stepsToDone s = .next t := by
  induction hn : s.stepsToDone generalizing s with
  | zero => exact ⟨s, rfl⟩
  | succ n ih =>
    have hbusy : s.busy = true := State.busy_iff_stepsToDone_pos.mpr (by omega)
    obtain ⟨t, hstep⟩ := h.exists_step hbusy hlen hanswered
    have hadvance := h.advance hbusy hstep
    simp only [runSteps, hstep]
    exact ih hadvance.underWay (hadvance.len_eq ▸ hlen) (h.answered_step hadvance hstep hanswered)
      (Nat.succ_injective (hadvance.steps.trans hn))

/-! ### From START on -/

/-- The step START of a host and an environment that keep still: it makes no access, leaves the environment as it was,
and puts the whole invocation under way. -/
structure State.Started (s u : State) (n : Word) : Prop where
  step_eq : step s = .next u
  underWay : u.UnderWay
  len_eq : u.len = n
  steps : u.stepsToDone = meanSteps s.cfg n.toNat
  reads : u.readsToCome = List.range n.toNat
  no_read : readIndices s.nextInput s.afterInput = []
  no_write : wrData s.nextInput s.afterInput = none
  mem_eq : u.mem = s.mem
  sample_eq : ∀ i, u.sample i = s.sample i

theorem State.exists_started {s : State} {p : HostInput} {ps : List HostInput}
    (hphase : s.phase = .idle ∨ s.phase = .done) (hinputs : s.inputs = p :: ps) (hrst : p.rst = false)
    (hstart : p.start = true) (hquiet : p.Quiet) (hsteady : ∀ q ∈ ps, q.Steady) : ∃ u, s.Started u p.len := by
  have hnext : s.nextInput = p := by rw [State.nextInput, hinputs]; rfl
  have hafter := State.afterInput_of_quiet (hnext ▸ hquiet)
  subst hnext
  exact ⟨s.afterInput.latchLen s.nextInput.len,
    { step_eq := step_start hrst hphase hstart
      underWay := ⟨by simpa [hinputs] using hsteady, nofun⟩
      len_eq := rfl
      steps := rfl
      reads := rfl
      no_read := readIndices_eq_nil (by rcases hphase with hphase | hphase <;> simp [hphase])
      no_write := wrData_eq_none (by rcases hphase with hphase | hphase <;> simp [hphase])
      mem_eq := by rw [hafter]; rfl
      sample_eq := by rw [hafter]; exact fun _ => rfl }⟩

/-- Settles O56: START reads nothing, and the run from there to DONE reads what was to come, the whole vector. -/
theorem everyElementReadOnceInOrder : Obligations.EveryElementReadOnceInOrder := by
  unfold Obligations.EveryElementReadOnceInOrder
  intro s p ps es hphase hinputs hrst hstart hquiet hsteady hlen hread
  obtain ⟨u, hu⟩ := State.exists_started hphase hinputs hrst hstart hquiet hsteady
  have hanswered : ∀ k ∈ u.readsToCome, (u.sample k).isSome = true := by
    simpa only [hu.reads, hu.sample_eq] using State.sample_isSome_of_vecRead hread
  obtain ⟨t, hrun⟩ := hu.underWay.exists_run (hu.len_eq ▸ hlen) hanswered
  have hran := hu.underWay.ran (Nat.le_refl _) hrun
  have hdone : t.readsToCome = [] := State.readsToCome_of_stepsToDone (by simpa using hran.steps)
  have hreads := hran.reads
  rw [hdone, List.append_nil, hu.steps, hu.reads] at hreads
  simp only [runReads, hu.step_eq, hu.no_read, List.nil_append, hreads]

/-- Settles O57: START writes nothing, and after it WR is the last step, so before it the block is busy and has left
memory alone. -/
theorem outKeptUntilWrite : Obligations.OutKeptUntilWrite := by
  unfold Obligations.OutKeptUntilWrite
  intro s p ps k t hphase hinputs hrst hstart hquiet hsteady hk hle hrun
  obtain ⟨u, hu⟩ := State.exists_started hphase hinputs hrst hstart hquiet hsteady
  obtain ⟨k, rfl⟩ : ∃ j, k = j + 1 := ⟨k - 1, by omega⟩
  have hlt : k < u.stepsToDone := hu.steps ▸ hle
  simp only [runSteps, hu.step_eq] at hrun
  have hran := hu.underWay.ran (Nat.le_of_lt hlt) hrun
  have hsteps := hran.steps
  have hbusy : t.busy = true := State.busy_iff_stepsToDone_pos.mpr (by omega)
  refine ⟨hbusy, Phase.finished_of_busy hbusy, (hran.mem hlt).trans hu.mem_eq, ?_⟩
  simp [runWrites, hu.step_eq, hu.no_write, hran.writes hlt]

end Sys2Proof.Machine
end

section
/-! PROOFS of the encoding family (spec/30_encoding.md), the words: the rows of the opcode map and what the decoder
answers off them (R84, R86, R91), that decoding and encoding are inverse (R83), and the bytes of a word (log 13). -/

namespace Sys2Proof

/-! ### The opcode map -/

/-- R84: a word of the map is the word of its instruction. -/
theorem encode_of_mem_opcodeMap : ∀ row ∈ opcodeMap, encode row.2 = .uop row.1 := by decide

/-- R84, R86: the map holds the nine words 0x0 to 0x8. -/
theorem mem_opcodeMap_words_iff : ∀ w : Uop, w ∈ opcodeMap.map Prod.fst ↔ w.toNat ≤ 8 := by decide

/-- R86: a word above 0x8 is on no row. -/
theorem decodeUop_reserved {w : Uop} (h : 9 ≤ w.toNat) : decodeUop w = .error (.reserved w) := by
  have hnone : opcodeMap.find? (fun row => row.1 == w) = none := by
    refine List.find?_eq_none.mpr fun row hrow hw => ?_
    have hle := (mem_opcodeMap_words_iff row.1).mp (List.mem_map_of_mem hrow)
    rw [eq_of_beq hw] at hle
    omega
  rw [decodeUop, hnone]

/-! ### Decoding and encoding are inverse -/

theorem decode_of_encode_eq {i : Instr} {c : CodeWord} (h : encode i = c) : decode c = .ok i :=
  h ▸ Machine.decode_encode i

theorem encode_of_decodeUop {w : Uop} {i : Instr} (h : decodeUop w = .ok i) : encode i = .uop w := by
  unfold decodeUop at h
  split at h
  case h_1 row hrow =>
    cases h
    rw [encode_of_mem_opcodeMap row (List.mem_of_find?_eq_some hrow), eq_of_beq (List.find?_some hrow :)]
  case h_2 => cases h

/-- R83: a command is its `start` bit above its `len`. -/
theorem one_append_len {c : Command} (h : c.getLsbD 32 = true) : 1#1 ++ c.extractLsb' 0 32 = c := by
  apply BitVec.eq_of_getLsbD_eq
  intro k hk
  rw [BitVec.getLsbD_append]
  split
  case isTrue hlt => simp [hlt]
  case isFalse hge =>
    obtain rfl : k = 32 := by omega
    exact h.symm

theorem encode_of_decodeCommand {c : Command} {i : Instr} (h : decodeCommand c = .ok i) : encode i = .command c := by
  unfold decodeCommand at h
  split at h
  case isTrue hstart => cases h; rw [encode, one_append_len hstart]
  case isFalse => cases h

/-- R83, R91: a word decodes to the instruction it is the word of, and to no other. -/
theorem decode_eq_ok_iff {c : CodeWord} {i : Instr} : decode c = .ok i ↔ encode i = c := by
  refine ⟨fun h => ?_, decode_of_encode_eq⟩
  cases c with
  | uop w => exact encode_of_decodeUop h
  | command c => exact encode_of_decodeCommand h

theorem decodeCommand_noCommand {c : Command} (h : c.getLsbD 32 = false) : decodeCommand c = .error .noCommand :=
  if_neg (by rw [h]; decide)

/-- R84, R86: the words of format U that decode are 0x0 to 0x8. -/
theorem exists_decodeUop_iff {w : Uop} : (∃ i, decodeUop w = .ok i) ↔ w.toNat ≤ 8 := by
  refine ⟨fun ⟨i, hi⟩ => ?_, fun hle => ?_⟩
  · by_contra hgt
    rw [decodeUop_reserved (by omega)] at hi
    cases hi
  · obtain ⟨row, hrow, rfl⟩ := List.mem_map.mp ((mem_opcodeMap_words_iff w).mpr hle)
    exact ⟨row.2, decode_of_encode_eq (encode_of_mem_opcodeMap row hrow)⟩

theorem exists_decodeCommand_iff {c : Command} : (∃ i, decodeCommand c = .ok i) ↔ c.getLsbD 32 = true := by
  refine ⟨fun ⟨i, hi⟩ => ?_, fun hstart => ⟨_, if_pos hstart⟩⟩
  by_contra hstart
  rw [decodeCommand_noCommand (by simpa using hstart)] at hi
  cases hi

theorem exists_decode_iff_wf {c : CodeWord} : (∃ i, decode c = .ok i) ↔ c.wf = true := by
  cases c with
  | uop w => exact exists_decodeUop_iff.trans decide_eq_true_iff.symm
  | command c => exact exists_decodeCommand_iff

/-! ### The bytes of a word -/

@[simp] theorem layBytes_length (n v : Nat) : (layBytes n v).length = n := by
  induction n generalizing v with
  | zero => rfl
  | succ n ih => simp [layBytes, ih]

/-- Laying a number down in `n` bytes and reading them back loses nothing below `256 ^ n`. -/
theorem bytesValue_layBytes {n v : Nat} (h : v < 256 ^ n) : bytesValue (layBytes n v) = v := by
  induction n generalizing v with
  | zero => simp only [Nat.pow_zero, Nat.lt_one_iff] at h; simp [layBytes, bytesValue, h]
  | succ n ih =>
    have hdiv : v / 256 < 256 ^ n := Nat.div_lt_of_lt_mul (by rwa [Nat.pow_succ'] at h)
    simp only [layBytes, bytesValue, ih hdiv, BitVec.toNat_ofNat]
    exact Nat.mod_add_div v 256

/-- The decoder on the bytes of a word is the decoder on the word: one byte is of format U, five are of format H, and no
bit stands above the word (log 13). -/
theorem decodeBytes_bytes (c : CodeWord) : decodeBytes c.bytes = decode c := by
  cases c with
  | uop w =>
    have hw : w.toNat < 16 := w.isLt
    have hvalue := bytesValue_layBytes (n := 1) (v := w.toNat) (by omega)
    simp [decodeBytes, CodeWord.bytes, hvalue, hw]
  | command w =>
    have hw : w.toNat < 8589934592 := w.isLt
    have hvalue := bytesValue_layBytes (n := 5) (v := w.toNat) (by omega)
    simp [decodeBytes, CodeWord.bytes, hvalue, hw]

/-! ### The statements -/

/-- Settles O1: the bytes of a word decode as the word does, which is the instruction it encodes. -/
theorem decodeOfEncode : Obligations.DecodeOfEncode := by
  unfold Obligations.DecodeOfEncode
  intro i _
  exact ⟨Machine.decode_encode i, (decodeBytes_bytes _).trans (Machine.decode_encode i)⟩

/-- Settles O2: decoding to an instruction is being its word, and the words off the map and the commands without `start`
are rejected by name. -/
theorem encodeOfDecode : Obligations.EncodeOfDecode := by
  unfold Obligations.EncodeOfDecode
  exact ⟨fun _ => ⟨fun _ => decode_eq_ok_iff.mp, exists_decode_iff_wf⟩, fun _ => decodeUop_reserved,
    fun _ => decodeCommand_noCommand⟩

/-- Settles O3: the nine rows of the map by evaluation, the words off it as reserved, and the inverse from R91's. -/
theorem uopDecodeTable : Obligations.UopDecodeTable := by
  unfold Obligations.UopDecodeTable
  exact ⟨rfl, rfl, rfl, rfl, rfl, rfl, rfl, rfl, rfl, fun _ => decodeUop_reserved, fun _ _ => decode_of_encode_eq⟩

end Sys2Proof
end

section
/-! PROOFS of the encoding family, the issue condition (R87, R103, R108): it is the sequencer's choice of a word, outside
it the word is refused, and a step that meets R31 is always given a word under its condition. -/

namespace Sys2Proof.Machine

/-! ### The condition is the sequencer's choice -/

/-- R103, R108: the issue conditions of the accumulate words exclude each other as the sequencer's choice does. -/
theorem sumWord_of_issueOk {i : Instr} {s : State} (hi : i = .acc1 ∨ i = .acc4 ∨ i = .acc8 ∨ i = .vred)
    (hok : issueOk i s = true) : sumWord s.cfg s.rem = i := by
  rcases hi with rfl | rfl | rfl | rfl
  · simp only [issueOk, State.canAcc1, Bool.and_eq_true, Bool.or_eq_true, decide_eq_true_eq] at hok
    obtain ⟨-, hstrat | ⟨hstrat, hrem⟩⟩ := hok
    · simp [sumWord, hstrat]
    · simp [sumWord, hstrat, hrem]
  · simp only [issueOk, State.canAcc4, Bool.and_eq_true, decide_eq_true_eq] at hok
    obtain ⟨⟨⟨-, hrem⟩, hstrat⟩, hgroup⟩ := hok
    simp [sumWord, hstrat, hgroup, groupWord, Config.Group.size, hrem]
  · simp only [issueOk, State.canAcc8, Bool.and_eq_true, decide_eq_true_eq] at hok
    obtain ⟨⟨⟨-, hrem⟩, hstrat⟩, hgroup⟩ := hok
    simp [sumWord, hstrat, hgroup, groupWord, Config.Group.size, hrem]
  · simp only [issueOk, State.canVred, Bool.and_eq_true, decide_eq_true_eq] at hok
    obtain ⟨-, hstrat⟩ := hok
    simp [sumWord, hstrat]

theorem sequencer_accWord {i : Instr} {s : State} (hi : i = .acc1 ∨ i = .acc4 ∨ i = .acc8 ∨ i = .vred)
    (hok : issueOk i s = true) : sequencer s = some i := by
  obtain ⟨hphase, hidx, -⟩ := accWord_bounds hi hok
  have hcount := one_le_readCount hi hok
  rw [sequencer_sum hphase (by omega), sumWord_of_issueOk hi hok]

theorem State.canNop_iff {s : State} : s.canNop = true ↔ s.phase = .idle ∨ s.phase = .done := by
  simp [State.canNop]

/-- R108: a micro-operation under its issue condition is the one the sequencer chooses. -/
theorem sequencer_of_issueOk {i : Instr} {s : State} (hi : ∀ n, i ≠ .start n) (hok : issueOk i s = true) :
    sequencer s = some i := by
  cases i with
  | nop => rcases State.canNop_iff.mp hok with hphase | hphase <;> simp [sequencer, hphase]
  | clr => simp [sequencer, State.canClr_iff.mp hok]
  | acc1 => exact sequencer_accWord (by simp) hok
  | acc4 => exact sequencer_accWord (by simp) hok
  | acc8 => exact sequencer_accWord (by simp) hok
  | vred => exact sequencer_accWord (by simp) hok
  | div =>
    obtain ⟨hphase, hidx⟩ := State.canDiv_iff.mp hok
    exact sequencer_div hphase hidx
  | fmt => simp [sequencer, State.canFmt_iff.mp hok]
  | wr => simp [sequencer, State.canWr_iff.mp hok]
  | start n => exact absurd rfl (hi n)

/-- R87: every micro-operation is guarded by its issue condition. -/
theorem exec_of_not_issueOk {i : Instr} {s : State} (hi : ∀ n, i ≠ .start n) (hok : issueOk i s = false) :
    exec i s = .refused .outOfPhaseWord := by
  have hguard : ∃ o, exec i s = issueWhen (issueOk i s) o := by
    cases i with
    | start n => exact absurd rfl (hi n)
    | _ => exact ⟨_, rfl⟩
  obtain ⟨o, ho⟩ := hguard
  rw [ho, hok, issueWhen_false]

/-- Settles O6: the issue condition and the sequencer's choice read off each other, and the guard refuses the rest. -/
theorem issueConditionIsSequencerChoice : Obligations.IssueConditionIsSequencerChoice := by
  unfold Obligations.IssueConditionIsSequencerChoice
  exact fun _ _ hi => ⟨⟨sequencer_of_issueOk hi, issueOk_of_sequencer⟩, exec_of_not_issueOk hi⟩

/-- Settles O7: a word off the map is refused by the decoder, and one on it that the sequencer did not choose is outside
its issue condition. -/
theorem onlyTheSequencersWordRuns : Obligations.OnlyTheSequencersWordRuns := by
  unfold Obligations.OnlyTheSequencersWordRuns
  intro s w hother
  refine ⟨fun hreserved => by rw [runWord, decodeUop_reserved hreserved], fun hdefined => ?_⟩
  obtain ⟨i, hi⟩ : ∃ i, decode (.uop w) = .ok i := exists_decodeUop_iff.mpr hdefined
  have hword := decode_eq_ok_iff.mp hi
  have hmicro : ∀ n, i ≠ .start n := by
    rintro n rfl
    cases hword
  have hok : issueOk i s = false :=
    Bool.eq_false_iff.mpr fun hok => hother i (sequencer_of_issueOk hmicro hok) hword
  rw [runWord_of_decode hi, exec_of_not_issueOk hmicro hok]

/-! ### What is issued is not refused -/

theorem accumulate_ne_refused {n : Nat} {s : State} {r : Refusal} : accumulate n s ≠ .refused r := by
  unfold accumulate
  split <;> nofun

theorem issueWhen_ne_refused {ok : Bool} {o : Host.Outcome State Fault Refusal} {r : Refusal} (hok : ok = true)
    (ho : o ≠ .refused r) : issueWhen ok o ≠ .refused r := by
  rwa [hok, issueWhen_true]

/-- R87: an instruction under its condition is executed, whether it completes or faults. -/
theorem exec_ne_refused {i : Instr} {s : State} {r : Refusal} (hok : issueOk i s = true) : exec i s ≠ .refused r := by
  cases i with
  | nop => exact issueWhen_ne_refused hok nofun
  | clr => exact issueWhen_ne_refused hok nofun
  | acc1 => exact issueWhen_ne_refused hok accumulate_ne_refused
  | acc4 => exact issueWhen_ne_refused hok accumulate_ne_refused
  | acc8 => exact issueWhen_ne_refused hok accumulate_ne_refused
  | vred => exact issueWhen_ne_refused hok accumulate_ne_refused
  | div => exact issueWhen_ne_refused hok (by split <;> nofun)
  | fmt => exact issueWhen_ne_refused hok nofun
  | wr => exact issueWhen_ne_refused hok nofun
  | start n =>
    have hcan : s.canStart = true := hok
    rw [exec, execStart, if_pos hcan]
    nofun

/-- R101: a block that is not busy accepts START. -/
theorem State.canStart_of_not_busy {s : State} (h : s.busy = false) : s.canStart = true := by
  unfold State.busy at h
  rw [State.canStart_iff]
  cases hphase : s.phase <;> simp [hphase, Phase.busy] at h ⊢

/-- R101, R103: what a step executes is START, where it is accepted, or the word the sequencer chose. -/
theorem of_issued {p : HostInput} {s : State} {i : Instr} (h : issued p s = some i) :
    (i = .start p.len ∧ s.canStart = true) ∨ sequencer s = some i := by
  unfold issued at h
  split at h
  case isTrue hstart =>
    simp only [Bool.and_eq_true, Bool.not_eq_true'] at hstart
    cases h
    exact .inl ⟨rfl, State.canStart_of_not_busy hstart.2⟩
  case isFalse => exact .inr h

theorem issueOk_of_issued {p : HostInput} {s : State} {i : Instr} (h : issued p s = some i) : issueOk i s = true := by
  obtain ⟨rfl, hstart⟩ | hseq := of_issued h
  · exact hstart
  · exact issueOk_of_sequencer hseq

/-- R31(a), R103: the sequencer has a next word wherever IDX has not passed LEN in SUM. -/
theorem exists_sequencer {s : State} (h : s.phase = .sum → s.idx.toNat ≤ s.len.toNat) : ∃ i, sequencer s = some i := by
  cases hphase : s.phase with
  | sum =>
    obtain hlt | heq := Nat.lt_or_eq_of_le (h hphase)
    · exact ⟨_, sequencer_sum hphase hlt⟩
    · exact ⟨_, sequencer_div hphase (BitVec.eq_of_toNat_eq heq)⟩
  | _ => simp [sequencer, hphase]

theorem exists_issued {s : State} (h : ∃ i, sequencer s = some i) (p : HostInput) : ∃ i, issued p s = some i := by
  unfold issued
  split
  · exact ⟨_, rfl⟩
  · exact h

/-- Settles O48: a reset is not refused, and otherwise a word is issued, under its condition. -/
theorem noStepIsRefused : Obligations.NoStepIsRefused := by
  unfold Obligations.NoStepIsRefused
  intro s r hinv
  cases hrst : s.nextInput.rst with
  | true => rw [step, stepWith, if_pos hrst]; nofun
  | false =>
    have hidx : s.phase = .sum → s.idx.toNat ≤ s.len.toNat := fun hphase =>
      hinv.regs.idx_le_len (by rw [hphase]; rfl)
    obtain ⟨i, hi⟩ := exists_issued (exists_sequencer (s := s.afterInput) hidx) s.nextInput
    rw [step_of_issued hrst hi]
    exact exec_ne_refused (issueOk_of_issued hi)

end Sys2Proof.Machine
end

section
/-! PROOFS of the encoding family, the step and its ports (R81 to R83, R88, R103): the trace port shows the word that is
executed, the two patterns of `start`, and when each port is driven. -/

namespace Sys2Proof.Machine

/-! ### The issued word -/

theorem uopInstr_eq_some_iff {p : HostInput} {s : State} {i : Instr} :
    uopInstr p s = some i ↔ p.rst = false ∧ (p.start && !s.busy) = false ∧ sequencer s = some i := by
  unfold uopInstr
  cases p.rst <;> cases (p.start && !s.busy) <;> simp

/-- R82, R92: outside reset a word of format U that is issued stands on the trace port. -/
theorem uopPort_of_issued {p : HostInput} {s : State} {i : Instr} {u : Uop} (hrst : p.rst = false)
    (hissued : issued p s = some i) (hword : encode i = .uop u) : uopPort p s = some u := by
  unfold issued at hissued
  split at hissued
  case isTrue => cases hissued; cases hword
  case isFalse hstart =>
    have huop : uopInstr p s = some i := uopInstr_eq_some_iff.mpr ⟨hrst, by simpa using hstart, hissued⟩
    simp only [uopPort, huop, uopWordOf, hword]

/-- Settles O5: the issued word is that of one instruction, so that is what it decodes to. -/
theorem stepRunsDecodedWord : Obligations.StepRunsDecodedWord := by
  unfold Obligations.StepRunsDecodedWord
  intro s w i hrst hword hdecode
  obtain ⟨j, hissued, rfl⟩ := issuedWord_eq_some_iff.mp hword
  obtain rfl : j = i := by simpa [decode_encode] using hdecode
  exact ⟨step_of_issued hrst hissued, fun u hu => uopPort_of_issued hrst hissued hu⟩

/-! ### The two patterns of `start` -/

theorem issued_of_not_start {p : HostInput} (h : p.start = false) (s : State) : issued p s = sequencer s := by
  simp [issued, h]

/-- R88: where `start` = 0 the `len` port is not looked at. -/
theorem stepWith_len_of_not_start {p : HostInput} (h : p.start = false) (n : Word) (s : State) :
    stepWith { p with len := n } s = stepWith p s := by
  have hissued : issued { p with len := n } s = issued p s :=
    (issued_of_not_start (p := { p with len := n }) h s).trans (issued_of_not_start h s).symm
  simp only [stepWith, issuedWord, hissued]

/-- Settles O8: START's word decodes to START, a word with `start` = 0 to nothing, and no step with `start` = 0 looks at
`len`. -/
theorem hostWordIsDefined : Obligations.HostWordIsDefined := by
  unfold Obligations.HostWordIsDefined
  refine ⟨fun s n => runWord_encode (.start n) s, fun s n => ?_, fun s p ps n hinputs hstart => ?_⟩
  · have hbit : (0#1 ++ n).getLsbD 32 = false := by
      rw [BitVec.getLsbD_append]; rfl
    rw [runWord, decodeCommand_noCommand hbit]
  · simp only [step, State.nextInput, State.afterInput, hinputs, List.headD_cons]
    exact (stepWith_len_of_not_start hstart n _).symm

/-! ### The ports -/

/-- R81, R142: the write port is enabled in FMTD, the phase of WR, outside reset. -/
theorem wrEn_iff {p : HostInput} {s : State} : wrEn p s = true ↔ p.rst = false ∧ s.phase = .fmtd := by
  refine ⟨fun h => ⟨(uopInstr_eq_some_iff.mp (of_decide_eq_true h)).1, phase_of_wrEn h⟩, fun ⟨hrst, hphase⟩ => ?_⟩
  exact decide_eq_true (uopInstr_eq_some_iff.mpr
    ⟨hrst, by simp [State.busy, Phase.busy, hphase], by simp [sequencer, hphase]⟩)

theorem exists_uopInstr_of_rdReq {p : HostInput} {s : State} (h : rdReq p s = true) :
    ∃ i, uopInstr p s = some i ∧ requestCount p s = readCount s i := by
  have hcount : requestCount p s ≠ 0 := of_decide_eq_true h
  unfold requestCount at hcount ⊢
  cases hi : uopInstr p s with
  | none => simp [hi] at hcount
  | some i => exact ⟨i, rfl, rfl⟩

/-- R81, R108: what a step requests lies inside the vector. -/
theorem idx_add_requestCount_le_len {p : HostInput} {s : State} (h : rdReq p s = true) :
    s.idx.toNat + requestCount p s ≤ s.len.toNat := by
  have hcount : requestCount p s ≠ 0 := of_decide_eq_true h
  obtain ⟨i, hi, hread⟩ := exists_uopInstr_of_rdReq h
  rw [hread] at hcount ⊢
  exact ((readsStayInsideVector s i (issueOk_of_sequencer (sequencer_of_uopInstr hi))).1 hcount).1

/-- R81, R103: the read port asks in SUM while samples are left, outside reset. -/
theorem rdReq_iff {p : HostInput} {s : State} :
    rdReq p s = true ↔ p.rst = false ∧ s.phase = .sum ∧ s.idx.toNat < s.len.toNat := by
  refine ⟨fun h => ?_, fun ⟨hrst, hphase, hidx⟩ => ?_⟩
  · obtain ⟨i, hi, -⟩ := exists_uopInstr_of_rdReq h
    have hcount : requestCount p s ≠ 0 := of_decide_eq_true h
    have hle := idx_add_requestCount_le_len h
    exact ⟨(uopInstr_eq_some_iff.mp hi).1, phase_of_rdReq h, by omega⟩
  · have hi : uopInstr p s = some (sumWord s.cfg s.rem) := uopInstr_eq_some_iff.mpr
      ⟨hrst, by simp [State.busy, Phase.busy, hphase], sequencer_sum hphase hidx⟩
    have hcount := one_le_readCount (sumWord_accWord s.cfg s.rem) (sumWord_issued hphase hidx).1
    simp only [rdReq, requestCount, hi, decide_eq_true_eq]
    omega

/-- Settles O52: each port is driven in the phase of its words, and the read it asks for is that of an issued word. -/
theorem portsFollowTheStep : Obligations.PortsFollowTheStep := by
  unfold Obligations.PortsFollowTheStep
  intro p s
  refine ⟨wrEn_iff, fun hen => if_pos hen, rdReq_iff, fun hreq => ?_⟩
  have hcount : requestCount p s ≠ 0 := of_decide_eq_true hreq
  exact ⟨requestCount p s, if_pos hreq, if_pos hreq, Nat.pos_of_ne_zero hcount, requestCount_le_laneCount hreq,
    idx_add_requestCount_le_len hreq⟩

end Sys2Proof.Machine
end

section
/-! PROOFS of the encoding family, the lanes above a read (R81, U17): whatever the environment drives there, an
instruction does the same and stops alike. -/

namespace Sys2Proof.Machine

/-- An outcome with another value on the lanes above the read in its next state; a stop carries no state. -/
def setSpare (k : Nat) : Host.Outcome State Fault Refusal → Host.Outcome State Fault Refusal
  | .next t => .next { t with rdSpare := k }
  | .fault f => .fault f
  | .refused r => .refused r

theorem setSpare_issueWhen (k : Nat) (ok : Bool) (o : Host.Outcome State Fault Refusal) :
    setSpare k (issueWhen ok o) = issueWhen ok (setSpare k o) := by
  cases ok <;> rfl

theorem vecRead_set_rdSpare (s : State) (k i n : Nat) : State.vecRead { s with rdSpare := k } i n = s.vecRead i n :=
  State.vecRead_congr n i fun _ _ _ => rfl

/-- An accumulate word adds the elements it read, whatever stands on the lanes above them. -/
theorem accWord_set_rdSpare {i : Instr} (hi : i = .acc1 ∨ i = .acc4 ∨ i = .acc8 ∨ i = .vred) (s : State) (k : Nat) :
    exec i { s with rdSpare := k } = setSpare k (exec i s) := by
  have hok : issueOk i { s with rdSpare := k } = issueOk i s := by cases i <;> rfl
  have hcount : readCount { s with rdSpare := k } i = readCount s i := by cases i <;> rfl
  rw [exec_accWord hi, exec_accWord hi, setSpare_issueWhen, hok, hcount]
  cases hissue : issueOk i s with
  | false => rfl
  | true =>
    obtain ⟨-, -, hlanes⟩ := accWord_bounds hi hissue
    have hread := vecRead_set_rdSpare s k s.idx.toNat (readCount s i)
    cases hes : s.vecRead s.idx.toNat (readCount s i) with
    | none => rw [accumulate_of_vecRead_none hes, accumulate_of_vecRead_none (hread.trans hes)]; rfl
    | some es => rw [accumulate_of_vecRead hes hlanes, accumulate_of_vecRead (hread.trans hes) hlanes]; rfl

/-- R81: no instruction looks at the lanes above its read. -/
theorem exec_set_rdSpare (i : Instr) (s : State) (k : Nat) :
    exec i { s with rdSpare := k } = setSpare k (exec i s) := by
  cases i with
  | nop => exact (setSpare_issueWhen k s.canNop (.next s)).symm
  | clr => exact (setSpare_issueWhen k s.canClr (.next s.clear)).symm
  | acc1 => exact accWord_set_rdSpare (by simp) s k
  | acc4 => exact accWord_set_rdSpare (by simp) s k
  | acc8 => exact accWord_set_rdSpare (by simp) s k
  | vred => exact accWord_set_rdSpare (by simp) s k
  | div =>
    simp only [exec, execDiv, setSpare_issueWhen, apply_ite (setSpare k)]
    rfl
  | fmt => exact (setSpare_issueWhen k s.canFmt (.next (s.latchResult (narrow s.quo)))).symm
  | wr => exact (setSpare_issueWhen k s.canWr (.next s.finish)).symm
  | start n =>
    simp only [exec, execStart, apply_ite (setSpare k)]
    rfl

/-- Settles O33, for each of the three outcomes. -/
theorem upperLanesIgnored : Obligations.UpperLanesIgnored := by
  unfold Obligations.UpperLanesIgnored
  intro i s k
  rw [exec_set_rdSpare i s k]
  exact ⟨fun t h => by rw [h]; rfl, fun f h => by rw [h]; rfl, fun r h => by rw [h]; rfl⟩

end Sys2Proof.Machine
end

section
/-! PROOFS of the invocation family (spec/40_invocation.md), the word a step executes: the table of R103, START accepted
(R101) and START dropped (R102). -/

namespace Sys2Proof.Machine

/-! ### The table of R103 -/

theorem sequencer_congr {s t : State} (hcfg : s.cfg = t.cfg) (hphase : s.phase = t.phase) (hidx : s.idx = t.idx)
    (hlen : s.len = t.len) : sequencer s = sequencer t := by
  simp only [sequencer, State.rem, hcfg, hphase, hidx, hlen]

theorem sequencer_scalar {s : State} (hphase : s.phase = .sum) (hidx : s.idx.toNat < s.len.toNat)
    (hstrat : s.cfg.strat = .scalar) : sequencer s = some .acc1 := by
  rw [sequencer_sum hphase hidx]
  simp [sumWord, hstrat]

theorem sequencer_group {s : State} (hphase : s.phase = .sum) (hidx : s.idx.toNat < s.len.toNat)
    (hstrat : s.cfg.strat = .unroll) (hrem : s.cfg.group.size ≤ s.rem) :
    sequencer s = some (groupWord s.cfg.group) := by
  rw [sequencer_sum hphase hidx]
  simp [sumWord, hstrat, hrem]

theorem sequencer_tail {s : State} (hphase : s.phase = .sum) (hidx : s.idx.toNat < s.len.toNat)
    (hstrat : s.cfg.strat = .unroll) (hrem : s.rem < s.cfg.group.size) : sequencer s = some .acc1 := by
  rw [sequencer_sum hphase hidx]
  simp [sumWord, hstrat, hrem]

theorem sequencer_vector {s : State} (hphase : s.phase = .sum) (hidx : s.idx.toNat < s.len.toNat)
    (hstrat : s.cfg.strat = .vector) : sequencer s = some .vred := by
  rw [sequencer_sum hphase hidx]
  simp [sumWord, hstrat]

/-- Settles O4: the choice by phase, and in SUM by strategy; a step executes it unless START is accepted. -/
theorem nextWordTable : Obligations.NextWordTable := by
  unfold Obligations.NextWordTable
  refine ⟨fun s => ⟨?idle, ?init, sequencer_div, sequencer_scalar, ?four, ?eight, sequencer_tail, sequencer_vector,
    ?divd, ?fmtd, ?done⟩, fun s t => sequencer_congr, fun s hrst =>
      ⟨fun hstart hbusy => ?accepted, fun hdropped i hi => ?executed⟩⟩
  case four | eight =>
    intro hphase hidx hstrat hgroup hrem
    simpa [hgroup, groupWord] using sequencer_group hphase hidx hstrat (by simpa [hgroup, Config.Group.size] using hrem)
  case accepted =>
    have hidle : s.afterInput.busy = false := hbusy
    exact step_of_issued hrst (by simp [issued, hstart, hidle])
  case executed =>
    obtain hstart | hbusy := hdropped
    · exact step_of_issued hrst ((issued_of_not_start hstart _).trans hi)
    · exact step_of_busy hbusy hrst hi
  all_goals
    intro hphase
    simp [sequencer, hphase]

/-! ### START -/

/-- Settles O23: the step START latches LEN in the state the input left. -/
theorem startAccepted : Obligations.StartAccepted := by
  unfold Obligations.StartAccepted
  intro n
  refine ⟨rfl, fun s hphase => ⟨?_, fun hrst hstart hlen => ?_, rfl, rfl⟩⟩
  · exact if_pos (State.canStart_iff.mpr hphase)
  · rw [step_start hrst hphase hstart, hlen]
    rfl

theorem State.canStart_of_busy {s : State} (h : s.busy = true) : s.canStart = false := by
  unfold State.busy at h
  cases hphase : s.phase <;> simp [State.canStart, Phase.busy, hphase] at h ⊢

/-- R103, R220: a step depends on the host's command only through the reset and the word that is issued. -/
theorem stepWith_congr {p q : HostInput} {s : State} (hrst : p.rst = q.rst) (hissued : issued p s = issued q s) :
    stepWith p s = stepWith q s := by
  simp only [stepWith, issuedWord, hrst, hissued]

/-- Settles O24: a busy block issues the sequencer's word under any command, and the command leaves the rest of the
input as it was. -/
theorem startIntoBusyBlockDropped : Obligations.StartIntoBusyBlockDropped := by
  unfold Obligations.StartIntoBusyBlockDropped
  intro s hbusy
  refine ⟨fun n => if_neg (by simp [State.canStart_of_busy hbusy]), fun p ps n hinputs => ?_⟩
  have hbusy' : s.afterInput.busy = true := hbusy
  have hissued : issued p s.afterInput = issued { p with start := false, len := n } s.afterInput := by
    rw [issued_of_busy hbusy', issued_of_busy hbusy']
  rw [State.afterInput, State.nextInput, hinputs] at hissued
  simp only [step, State.nextInput, State.afterInput, hinputs, List.headD_cons]
  exact stepWith_congr rfl hissued

end Sys2Proof.Machine
end

section
/-! PROOFS of the invocation family, progress (R109, R233): in each phase a block that is not reset takes its next
step, provided its read is answered and it does not divide by zero. -/

namespace Sys2Proof.Machine

/-- R143: an idle or finished block without a command does nothing. -/
theorem step_nop {s : State} (hrst : s.nextInput.rst = false) (hphase : s.phase = .idle ∨ s.phase = .done)
    (hstart : s.nextInput.start = false) : step s = .next s.afterInput := by
  have hcan : s.afterInput.canNop = true := State.canNop_iff.mpr hphase
  have hseq : sequencer s.afterInput = some .nop := by rcases hphase with hphase | hphase <;> simp [sequencer, hphase]
  rw [step_of_issued hrst ((issued_of_not_start hstart _).trans hseq), exec, execNop, hcan, issueWhen_true]

theorem exists_step_of_not_busy {s : State} (hrst : s.nextInput.rst = false)
    (hphase : s.phase = .idle ∨ s.phase = .done) : ∃ t, step s = .next t := by
  cases hstart : s.nextInput.start with
  | true => exact ⟨_, step_start hrst hphase hstart⟩
  | false => exact ⟨_, step_nop hrst hphase hstart⟩

/-- R27, R81: in SUM with samples left a step requests as many elements as its word adds. -/
theorem requestCount_add {p : HostInput} {s : State} (hrst : p.rst = false) (hphase : s.phase = .sum)
    (hidx : s.idx.toNat < s.len.toNat) : requestCount p s = sumCount s.cfg s.rem := by
  have hlength := congrArg List.length (readIndices_add hrst hphase hidx)
  simpa [readIndices] using hlength

/-- R68, R109: an accumulate step whose read is answered is made. -/
theorem State.Answered.exists_step_add {s : State} (h : s.Answered) (hrst : s.nextInput.rst = false)
    (hphase : s.phase = .sum) (hidx : s.idx.toNat < s.len.toNat) : ∃ t, step s = .next t := by
  obtain ⟨es, hread⟩ := Option.isSome_iff_exists.mp h
  have hcount : requestCount s.nextInput s.afterInput = sumCount s.cfg s.rem := requestCount_add hrst hphase hidx
  rw [hcount] at hread
  rw [step_add hrst hphase hidx, accumulate, State.afterInput_idx, hread]
  exact ⟨_, rfl⟩

theorem State.Answered.exists_step {s : State} (h : s.Answered) (hrst : s.nextInput.rst = false)
    (hle : s.phase = .sum → s.idx.toNat ≤ s.len.toNat) (hlen : ¬ (s.phase = .sum ∧ s.len = 0#32)) :
    ∃ t, step s = .next t := by
  cases hphase : s.phase with
  | idle => exact exists_step_of_not_busy hrst (.inl hphase)
  | done => exact exists_step_of_not_busy hrst (.inr hphase)
  | init => exact ⟨_, step_init hrst hphase⟩
  | sum =>
    obtain hlt | heq := Nat.lt_or_eq_of_le (hle hphase)
    · exact h.exists_step_add hrst hphase hlt
    · have hpos : s.len ≠ 0#32 := fun hzero => hlen ⟨hphase, hzero⟩
      exact ⟨_, (step_divide hrst hphase (BitVec.eq_of_toNat_eq heq)).trans (if_neg hpos)⟩
  | divd => exact ⟨_, step_format hrst hphase⟩
  | fmtd => exact ⟨_, step_write hrst hphase⟩

/-- R109: an accumulate step stays in SUM and lowers REM. -/
theorem rem_lt_of_step_add {s t : State} (hrst : s.nextInput.rst = false) (hphase : s.phase = .sum)
    (hidx : s.idx.toNat < s.len.toNat) (h : step s = .next t) : t.phase = .sum ∧ t.rem < s.rem := by
  obtain ⟨es, hes, rfl⟩ := of_step_add hrst hphase hidx h
  have hrem : s.rem = s.len.toNat - s.idx.toNat := rfl
  obtain ⟨hpos, hle⟩ := sumCount_bounds s.cfg (r := s.rem) (by omega)
  have hrem' : (s.afterInput.addSamples es).rem = s.rem - es.length :=
    State.addSamples_rem (s := s.afterInput) (show s.idx.toNat + es.length ≤ s.len.toNat by omega)
  exact ⟨hphase, by omega⟩

/-- Settles O50: a reset is a step, and otherwise each phase makes its own. -/
theorem progress : Obligations.Progress := by
  unfold Obligations.Progress
  intro s hinv hanswered hlen
  have hle : s.phase = .sum → s.idx.toNat ≤ s.len.toNat := fun hphase =>
    hinv.regs.idx_le_len (by rw [hphase]; rfl)
  obtain ⟨t, hstep⟩ : ∃ t, step s = .next t := by
    cases hrst : s.nextInput.rst with
    | true => exact ⟨_, if_pos hrst⟩
    | false => exact hanswered.exists_step hrst hle hlen
  exact ⟨t, hstep, fun hrst hphase hidx => rem_lt_of_step_add hrst hphase hidx hstep⟩

end Sys2Proof.Machine
end

section
/-! PROOFS of the invocation family, the trace port: the word it shows in each phase, the invocation of length 0 (R104,
R192), and the word sequence of a whole invocation (R104 to R107). -/

namespace Sys2Proof.Machine

/-! ### The word on the port -/

theorem uopPort_of_busy {p : HostInput} {s : State} {i : Instr} {u : Uop} (hrst : p.rst = false)
    (hbusy : s.busy = true) (hseq : sequencer s = some i) (hword : encode i = .uop u) : uopPort p s = some u :=
  uopPort_of_issued hrst ((issued_of_busy hbusy p).trans hseq) hword

/-- The step START shows no word (log 16). -/
theorem uopPort_of_start {p : HostInput} {s : State} (hstart : p.start = true)
    (hphase : s.phase = .idle ∨ s.phase = .done) : uopPort p s = none := by
  have hbusy : s.busy = false := by rcases hphase with hphase | hphase <;> simp [State.busy, Phase.busy, hphase]
  simp [uopPort, uopInstr, hstart, hbusy]

/-! ### Length 0 -/

theorem State.nextInput_rst_eq_false {s : State} (h : ∀ p ∈ s.inputs, p.rst = false) : s.nextInput.rst = false := by
  unfold State.nextInput
  cases hinputs : s.inputs with
  | nil => rfl
  | cons p ps => exact h p (by simp [hinputs])

theorem State.nextInput_of_inputs {s : State} {p : HostInput} {ps : List HostInput} (h : s.inputs = p :: ps) :
    s.nextInput = p := by
  rw [State.nextInput, h]
  rfl

/-- The three steps of an invocation of length 0: START from `s`, CLR from `u`, and the DIV from `v` that faults. -/
structure State.ZeroRun (s u v : State) : Prop where
  start_phase : s.phase = .idle ∨ s.phase = .done
  start_cmd : s.nextInput.start = true
  start_step : step s = .next u
  clr_phase : u.phase = .init
  clr_rst : u.nextInput.rst = false
  clr_step : step u = .next v
  div_phase : v.phase = .sum
  div_rst : v.nextInput.rst = false
  div_idx : v.idx = v.len
  div_len : v.len = 0#32
  div_step : step v = .fault .divideByZero

theorem State.exists_zeroRun {s : State} {p : HostInput} {ps : List HostInput}
    (hphase : s.phase = .idle ∨ s.phase = .done) (hinputs : s.inputs = p :: ps) (hrst : p.rst = false)
    (hstart : p.start = true) (hlen : p.len = 0#32) (hrsts : ∀ q ∈ ps, q.rst = false) : ∃ u v, s.ZeroRun u v := by
  obtain rfl := State.nextInput_of_inputs hinputs
  obtain ⟨u, hs, hinit, hulen, huinputs⟩ : ∃ u, step s = .next u ∧ u.phase = .init ∧ u.len = 0#32 ∧ u.inputs = ps :=
    ⟨_, step_start hrst hphase hstart, rfl, hlen, by simp [hinputs]⟩
  have hurst : u.nextInput.rst = false := State.nextInput_rst_eq_false (huinputs ▸ hrsts)
  obtain ⟨v, hu, hsum, hvidx, hvlen, hvinputs⟩ : ∃ v, step u = .next v ∧ v.phase = .sum ∧ v.idx = 0#32 ∧
      v.len = 0#32 ∧ v.inputs = u.inputs.tail := ⟨_, step_init hurst hinit, rfl, rfl, hulen, rfl⟩
  have hvrst : v.nextInput.rst = false := State.nextInput_rst_eq_false fun q hq =>
    hrsts q (huinputs ▸ List.mem_of_mem_tail (hvinputs ▸ hq))
  have hidx : v.idx = v.len := hvidx.trans hvlen.symm
  exact ⟨u, v, hphase, hstart, hs, hinit, hurst, hu, hsum, hvrst, hidx, hvlen,
    (step_divide hvrst hsum hidx).trans (if_pos hvlen)⟩

section ZeroRun

variable {s u v : State} (h : s.ZeroRun u v)
include h

theorem State.ZeroRun.runReads_eq : runReads 3 s = [] := by
  have hstart := readIndices_eq_nil (p := s.nextInput) (s := s.afterInput)
    (by rcases h.start_phase with hphase | hphase <;> simp [hphase])
  have hclr := readIndices_eq_nil (p := u.nextInput) (s := u.afterInput) (by simp [h.clr_phase])
  have hdiv := readIndices_divide (s := v.afterInput) h.div_rst h.div_phase h.div_idx
  simp [runReads, h.start_step, h.clr_step, h.div_step, hstart, hclr, hdiv]

theorem State.ZeroRun.runWrites_eq : runWrites 3 s = [] := by
  have hstart := wrData_eq_none (p := s.nextInput) (s := s.afterInput)
    (by rcases h.start_phase with hphase | hphase <;> simp [hphase])
  have hclr := wrData_eq_none (p := u.nextInput) (s := u.afterInput) (by simp [h.clr_phase])
  have hdiv := wrData_eq_none (p := v.nextInput) (s := v.afterInput) (by simp [h.div_phase])
  simp [runWrites, h.start_step, h.clr_step, h.div_step, hstart, hclr, hdiv]

theorem State.ZeroRun.runUops_eq : runUops 3 s = [0x1#4, 0x6#4] := by
  have hstart := uopPort_of_start (p := s.nextInput) (s := s.afterInput) h.start_cmd h.start_phase
  have hclr := uopPort_of_busy (s := u.afterInput) (i := .clr) h.clr_rst (by simp [State.busy, Phase.busy, h.clr_phase])
    (by simp [sequencer, h.clr_phase]) rfl
  have hdiv := uopPort_of_busy (s := v.afterInput) h.div_rst (by simp [State.busy, Phase.busy, h.div_phase])
    (sequencer_div h.div_phase h.div_idx) rfl
  simp [runUops, h.start_step, h.clr_step, h.div_step, hstart, hclr, hdiv]

end ZeroRun

/-- Settles O58: the run is START, CLR and the DIV that faults, whatever the environment answers. -/
theorem zeroLengthFaultsAtDiv : Obligations.ZeroLengthFaultsAtDiv := by
  unfold Obligations.ZeroLengthFaultsAtDiv
  intro s p ps hphase hinputs hrst hstart hlen hrsts
  obtain ⟨u, v, h⟩ := State.exists_zeroRun hphase hinputs hrst hstart hlen hrsts
  have hfault : runSteps 3 s = .fault .divideByZero := by simp [runSteps, h.start_step, h.clr_step, h.div_step]
  have htwo : runSteps 2 s = .next v := by simp [runSteps, h.start_step, h.clr_step]
  have hwords : (meanWords s.cfg 0).map encode = [.uop 0x1#4, .uop 0x6#4] := by simp [meanWords, encode]
  exact ⟨hfault, h.runReads_eq, h.runWrites_eq, h.runUops_eq, hwords, v, htwo, h.div_phase, h.div_len⟩

/-! ### Length at least 1 -/

theorem sumWords_length (c : Config.Params) (n : Nat) : (sumWords c n).length = sumSteps c n := by
  induction n using Nat.strong_induction_on with
  | _ n ih =>
    obtain rfl | hpos := Nat.eq_zero_or_pos n
    · simp
    · obtain ⟨hcount, -⟩ := sumCount_bounds c hpos
      rw [sumWords_rec c hpos, sumSteps_rec c hpos, List.length_cons, ih _ (by omega), Nat.add_comm]

theorem meanWords_of_pos (c : Config.Params) {n : Nat} (h : 1 ≤ n) :
    meanWords c n = .clr :: (sumWords c n ++ [.div, .fmt, .wr]) := by
  rw [meanWords, if_neg (by omega)]

/-- The micro-operations this invocation, of length at least 1, has still to execute (R104 to R107). -/
def State.wordsToCome (s : State) : List Instr :=
  match s.phase with
  | .idle => []
  | .init => meanWords s.cfg s.len.toNat
  | .sum => sumWords s.cfg s.rem ++ [.div, .fmt, .wr]
  | .divd => [.fmt, .wr]
  | .fmtd => [.wr]
  | .done => []

theorem State.wordsToCome_of_stepsToDone {s : State} : s.stepsToDone = 0 → s.wordsToCome = [] := by
  unfold State.stepsToDone State.wordsToCome
  cases s.phase <;> simp

/-- R103: the accumulate word of a step is the first of those to come, and the step leaves the rest. -/
theorem State.wordsToCome_addSamples {s : State} {es : List Sample} (hphase : s.phase = .sum)
    (hidx : s.idx.toNat < s.len.toNat) (hes : es.length = sumCount s.cfg s.rem) :
    s.wordsToCome = sumWord s.cfg s.rem :: (s.addSamples es).wordsToCome := by
  have hrem : s.rem = s.len.toNat - s.idx.toNat := rfl
  obtain ⟨-, hle⟩ := sumCount_bounds s.cfg (r := s.rem) (by omega)
  have hrem' : (s.addSamples es).rem = s.rem - sumCount s.cfg s.rem :=
    hes ▸ State.addSamples_rem (by omega)
  simp only [State.wordsToCome, State.addSamples_phase, State.addSamples_cfg, hphase, hrem']
  rw [sumWords_rec s.cfg (by omega), List.cons_append]

/-- A step of an invocation executes the first of the words to come and leaves the others. -/
theorem State.UnderWay.wordsToCome_step {s t : State} (h : s.UnderWay) (hbusy : s.busy = true) (hlen : 1 ≤ s.len.toNat)
    (hstep : step s = .next t) :
    ∃ i, sequencer s = some i ∧ (∀ n, i ≠ .start n) ∧ s.wordsToCome = i :: t.wordsToCome := by
  have hrst := (State.nextInput_steady h.steady).1
  cases hphase : s.phase with
  | idle => simp [State.busy, Phase.busy, hphase] at hbusy
  | done => simp [State.busy, Phase.busy, hphase] at hbusy
  | init =>
    rw [step_init hrst hphase] at hstep
    cases hstep
    refine ⟨.clr, by simp [sequencer, hphase], nofun, ?_⟩
    simp [State.wordsToCome, hphase, State.rem, meanWords_of_pos s.cfg hlen]
  | sum =>
    obtain hlt | heq := Nat.lt_or_eq_of_le (h.idx_le_len hphase)
    · obtain ⟨es, hes, rfl⟩ := of_step_add hrst hphase hlt hstep
      exact ⟨_, sequencer_sum hphase hlt, fun n hn => by simpa [hn] using sumWord_accWord s.cfg s.rem,
        State.wordsToCome_addSamples (s := s.afterInput) hphase hlt hes⟩
    · have hidx := BitVec.eq_of_toNat_eq heq
      rw [step_divide hrst hphase hidx] at hstep
      split at hstep
      · cases hstep
      · cases hstep
        exact ⟨.div, sequencer_div hphase hidx, nofun, by simp [State.wordsToCome, hphase, State.rem, hidx]⟩
  | divd =>
    rw [step_format hrst hphase] at hstep
    cases hstep
    exact ⟨.fmt, by simp [sequencer, hphase], nofun, by simp [State.wordsToCome, hphase]⟩
  | fmtd =>
    rw [step_write hrst hphase] at hstep
    cases hstep
    exact ⟨.wr, by simp [sequencer, hphase], nofun, by simp [State.wordsToCome, hphase]⟩

theorem exists_encode_eq_uop {i : Instr} (h : ∀ n, i ≠ .start n) : ∃ u, encode i = .uop u := by
  cases i with
  | start n => exact absurd rfl (h n)
  | _ => exact ⟨_, rfl⟩

/-- A run that answers a state made its first step and ran on from there. -/
theorem of_runSteps_succ {s t : State} {k : Nat} (h : runSteps (k + 1) s = .next t) :
    ∃ u, step s = .next u ∧ runSteps k u = .next t := by
  cases hstep : step s with
  | next u => exact ⟨u, rfl, by simpa [runSteps, hstep] using h⟩
  | fault f => simp [runSteps, hstep] at h
  | refused r => simp [runSteps, hstep] at h

/-- R205: the words shown so far and those to come are the words to come at the start. -/
theorem State.UnderWay.runUops_append {s t : State} {k : Nat} (h : s.UnderWay) (hlen : 1 ≤ s.len.toNat)
    (hk : k ≤ s.stepsToDone) (hrun : runSteps k s = .next t) :
    (runUops k s).map CodeWord.uop ++ t.wordsToCome.map encode = s.wordsToCome.map encode := by
  induction k generalizing s with
  | zero =>
    cases hrun
    rfl
  | succ k ih =>
    have hbusy : s.busy = true := State.busy_iff_stepsToDone_pos.mpr (by omega)
    obtain ⟨u, hstep, hrest⟩ := of_runSteps_succ hrun
    obtain ⟨hunder, hulen, hsteps, -⟩ := h.advance hbusy hstep
    obtain ⟨i, hseq, hmicro, hwords⟩ := h.wordsToCome_step hbusy hlen hstep
    obtain ⟨w, hw⟩ := exists_encode_eq_uop hmicro
    have hport : uopPort s.nextInput s.afterInput = some w :=
      uopPort_of_busy (State.nextInput_steady h.steady).1 hbusy hseq hw
    simp [runUops, hstep, hport, hwords, hw, ih hunder (hulen ▸ hlen) (by omega) hrest]

/-- R109: the invocation a START has put under way runs to DONE where the environment answers its vector. -/
theorem State.Started.exists_run {s u : State} {n : Word} {es : List Sample} (hu : s.Started u n) (hlen : 1 ≤ n.toNat)
    (hread : s.vecRead 0 n.toNat = some es) : ∃ t, runSteps (meanSteps s.cfg n.toNat) u = .next t := by
  have hanswered : ∀ k ∈ u.readsToCome, (u.sample k).isSome = true := by
    simpa only [hu.reads, hu.sample_eq] using State.sample_isSome_of_vecRead hread
  exact hu.steps ▸ hu.underWay.exists_run (hu.len_eq ▸ hlen) hanswered

theorem State.Started.eq_latchLen {s u : State} {p : HostInput} {ps : List HostInput} (hu : s.Started u p.len)
    (hphase : s.phase = .idle ∨ s.phase = .done) (hinputs : s.inputs = p :: ps) (hrst : p.rst = false)
    (hstart : p.start = true) : u = s.afterInput.latchLen p.len := by
  obtain rfl := State.nextInput_of_inputs hinputs
  cases (step_start hrst hphase hstart).symm.trans hu.step_eq
  rfl

/-- Settles O55: START shows no word, and the run from there to DONE shows the words to come, the whole sequence. -/
theorem traceIsTheStrategySequence : Obligations.TraceIsTheStrategySequence := by
  unfold Obligations.TraceIsTheStrategySequence
  refine ⟨fun c n hn => ?_, fun s p ps es hphase hinputs hrst hstart hquiet hsteady hlen hread => ?_⟩
  · rw [meanWords_of_pos c hn, meanSteps]
    simp [sumWords_length]
  · obtain ⟨u, hu⟩ := State.exists_started hphase hinputs hrst hstart hquiet hsteady
    obtain ⟨t, hrun⟩ := hu.exists_run hlen hread
    have hle := hu.steps.ge
    have hsteps := (hu.underWay.ran hle hrun).steps
    have hdone : t.wordsToCome = [] := State.wordsToCome_of_stepsToDone (by have := hu.steps; omega)
    have hwords : u.wordsToCome = meanWords s.cfg p.len.toNat := by
      rw [hu.eq_latchLen hphase hinputs hrst hstart]; rfl
    have hshown := hu.underWay.runUops_append (hu.len_eq ▸ hlen) hle hrun
    rw [hdone, hwords, List.map_nil, List.append_nil] at hshown
    have hnext := State.nextInput_of_inputs hinputs
    have hnone := uopPort_of_start (p := s.nextInput) (s := s.afterInput) (hnext ▸ hstart) hphase
    simp [runUops, hu.step_eq, hnone, hshown]

end Sys2Proof.Machine
end

section
/-! PROOFS of the invocation family, the contract (R100): an invocation keeps ACC the sum of the samples it has read, so
that WR finds the mean in RES, and WR is its last step. -/

namespace Sys2Proof.Machine

/-! ### A run up to WR -/

/-- What every step of an invocation before WR keeps holds in every state the invocation reaches up to WR. -/
theorem State.UnderWay.run_induction {P : State → Prop}
    (hP : ∀ s t : State, s.UnderWay → s.busy = true → s.phase ≠ .fmtd → step s = .next t → P s → P t)
    {s t : State} {k : Nat} (h : s.UnderWay) (hs : P s) (hk : k < s.stepsToDone) (hrun : runSteps k s = .next t) :
    P t := by
  induction k generalizing s with
  | zero =>
    cases hrun
    exact hs
  | succ k ih =>
    have hbusy : s.busy = true := State.busy_iff_stepsToDone_pos.mpr (by omega)
    obtain ⟨u, hstep, hrest⟩ := of_runSteps_succ hrun
    obtain ⟨hunder, -, hsteps, -⟩ := h.advance hbusy hstep
    have hu := hP s u h hbusy (State.phase_ne_fmtd_of_stepsToDone (by omega)) hstep hs
    exact ih hunder hu (by omega) hrest

theorem exists_last_step {s t : State} {k : Nat} (h : runSteps (k + 1) s = .next t) :
    ∃ u, runSteps k s = .next u ∧ step u = .next t := by
  induction k generalizing s with
  | zero =>
    obtain ⟨u, hstep, hrest⟩ := of_runSteps_succ h
    exact ⟨s, rfl, hrest ▸ hstep⟩
  | succ k ih =>
    obtain ⟨u, hstep, hrest⟩ := of_runSteps_succ h
    simpa only [runSteps, hstep] using ih hrest

theorem State.phase_of_stepsToDone_eq_one {s : State} : s.stepsToDone = 1 → s.phase = .fmtd := by
  unfold State.stepsToDone
  cases s.phase <;> simp

/-! ### The running sum -/

/-- The same state in a build whose adder wraps. -/
def State.wrapping (s : State) : State :=
  { s with cfg := { s.cfg with overflow := .wrap } }

/-- R31(b) over one accumulate step that OVERFLOW_POLICY does not leave open: it is the step of the wrapping build. -/
theorem State.Summed.addSamples_of_not_open {s : State} {fs : List Sample} (h : s.Summed)
    (hopen : s.overflowOpen fs = false) (hread : s.vecRead s.idx.toNat fs.length = some fs)
    (hidx : s.idx.toNat + fs.length ≤ s.len.toNat) : (s.addSamples fs).Summed := by
  have hvec (i n : Nat) : s.wrapping.vecRead i n = s.vecRead i n := State.vecRead_congr _ _ fun _ _ _ => rfl
  have hwrap : (s.wrapping.addSamples fs).Summed :=
    State.Summed.addSamples (h.of_vecRead (hvec _ _) rfl rfl) rfl ((hvec _ _).trans hread) hidx
  refine hwrap.of_vecRead (State.vecRead_congr _ _ fun _ _ _ => rfl) rfl ?_
  rw [State.addSamples_acc, State.addSamples_acc, State.nextAcc_of_not_open hopen,
    State.nextAcc_of_not_open (State.overflowOpen_of_wrap rfl fs)]
  rfl

/-- R166: up to SAFE_LEN samples no accumulate step leaves the range, so none is open (U3). -/
theorem State.AccBounded.overflowOpen_eq_false {s : State} {fs : List Sample} (h : s.AccBounded)
    (hphase : s.phase = .sum) (hsafe : s.idx.toNat + fs.length ≤ Config.safeLen) : s.overflowOpen fs = false := by
  have hsum := exactSum_bounds fs
  have hacc := h (by rw [hphase]; rfl) (by omega)
  refine State.overflowOpen_of_fits ((fits32_iff _).mpr ?_)
  simp only [Config.safeLen] at hsafe
  omega

/-- An invocation over the vector `es`: the environment holds it, its sum is not left open (U3), the registers are as
R31 and R166 say, and ACC is the sum of the samples added so far. -/
structure State.Computing (s : State) (es : List Sample) : Prop where
  vector : s.vecRead 0 s.len.toNat = some es
  closed : s.cfg.overflow = .wrap ∨ s.len.toNat ≤ Config.safeLen
  regs : s.RegInv
  bounded : s.AccBounded
  summed : s.phase.cleared = true → s.Summed

theorem State.Computing.afterInput {s : State} {es : List Sample} (h : s.Computing es) (hquiet : s.nextInput.Quiet) :
    s.afterInput.Computing es where
  vector := (State.vecRead_afterInput_of_quiet hquiet _ _).trans h.vector
  closed := h.closed
  regs := { h.regs with }
  bounded := h.bounded
  summed hphase := (h.summed hphase).of_vecRead (State.vecRead_afterInput_of_quiet hquiet _ _) rfl rfl

theorem State.Computing.summed_addSamples {s : State} {es fs : List Sample} (h : s.Computing es)
    (hphase : s.phase = .sum) (hread : s.vecRead s.idx.toNat fs.length = some fs)
    (hidx : s.idx.toNat + fs.length ≤ s.len.toNat) : (s.addSamples fs).Summed := by
  have hopen : s.overflowOpen fs = false := by
    obtain hwrap | hsafe := h.closed
    · exact State.overflowOpen_of_wrap hwrap fs
    · exact h.bounded.overflowOpen_eq_false hphase (hidx.trans hsafe)
  exact (h.summed (by rw [hphase]; rfl)).addSamples_of_not_open hopen hread hidx

/-- Before WR an instruction leaves the build and what the environment answers as they were. -/
theorem State.Effect.keeps_environment {s t : State} (heff : s.Effect t) (hphase : s.phase ≠ .fmtd) :
    t.cfg = s.cfg ∧ ∀ i n, t.vecRead i n = s.vecRead i n := by
  cases heff with
  | write hfmtd => exact absurd hfmtd hphase
  | _ => exact ⟨rfl, fun _ _ => State.vecRead_congr _ _ fun _ _ _ => rfl⟩

theorem State.Computing.of_effect {s t : State} {es : List Sample} (h : s.Computing es) (heff : s.Effect t)
    (hphase : s.phase ≠ .fmtd) (hlen : t.len = s.len) : t.Computing es := by
  obtain ⟨hcfg, hread⟩ := heff.keeps_environment hphase
  refine ⟨hlen ▸ hread _ _ ▸ h.vector, hcfg ▸ hlen ▸ h.closed, h.regs.of_effect heff, h.bounded.of_effect heff, ?_⟩
  cases heff with
  | stay => exact h.summed
  | clear => exact fun _ => ⟨[], rfl, rfl⟩
  | add fs hsum hfs hidx => exact fun _ => h.summed_addSamples hsum hfs hidx
  | divide hsum => exact fun _ => (h.summed (by rw [hsum]; rfl)).of_vecRead (hread _ _) rfl rfl
  | format hdivd => exact fun _ => (h.summed (by rw [hdivd]; rfl)).of_vecRead (hread _ _) rfl rfl
  | write hfmtd => exact absurd hfmtd hphase
  | start n => exact nofun

/-- An invocation of length `n` over the vector `es`, with the buffers the caller bound for it. -/
structure State.Invocation (s : State) (es : List Sample) (n : Word) (b : Config.Handles) : Prop where
  underWay : s.UnderWay
  computing : s.Computing es
  len_eq : s.len = n
  handles_eq : s.handles = b

/-- Each step of an invocation before WR keeps it. -/
theorem State.Invocation.step_keeps {s t : State} {es : List Sample} {n : Word} {b : Config.Handles}
    (h : s.Invocation es n b) (hbusy : s.busy = true) (hphase : s.phase ≠ .fmtd) (hstep : step s = .next t) :
    t.Invocation es n b := by
  obtain ⟨hunder, hcomputing, hlen, hhandles⟩ := h
  obtain ⟨hrst, hquiet⟩ := State.nextInput_steady hunder.steady
  have hadvance := hunder.advance hbusy hstep
  have hcomputing' : t.Computing es := by
    obtain ⟨hreset, -⟩ | ⟨-, i, -, hexec⟩ := of_step_next_exec hstep
    · simp [hrst] at hreset
    · exact (hcomputing.afterInput hquiet).of_effect (exec_effect hexec) hphase hadvance.len_eq
  exact ⟨hadvance.underWay, hcomputing', hadvance.len_eq.trans hlen,
    (hunder.step_keeps_memory hphase hstep).2.1.trans hhandles⟩

/-! ### The registers at WR -/

theorem eq_fromSint32_of_toNat {a : Word} {k : Int} (h : (a.toNat : Int) = k % 4294967296) : a = fromSint32 k := by
  apply BitVec.eq_of_toNat_eq
  rw [fromSint32, BitVec.toNat_ofInt]
  norm_num
  omega

/-- R100: in FMTD the registers are A, Q and R of the contract. -/
theorem State.Computing.registers {s : State} {es : List Sample} (h : s.Computing es) (hphase : s.phase = .fmtd) :
    s.idx = s.len ∧ s.acc = meanAcc es ∧ s.quo = meanQuo es ∧ s.res = meanOut es := by
  have hformatted : s.phase.formatted = true := by rw [hphase]; rfl
  have hdivided := Phase.divided_of_formatted hformatted
  have hidx := h.regs.idx_eq_len hdivided
  have hlength := State.length_of_vecRead h.vector
  have hacc : s.acc = meanAcc es := by
    obtain ⟨fs, hfs, hsum⟩ := h.summed (Phase.cleared_of_divided hdivided)
    rw [hidx, h.vector, Option.some_inj] at hfs
    exact hfs ▸ eq_fromSint32_of_toNat hsum
  have hquo : s.quo = meanQuo es := by
    rw [meanQuo, ← hacc, hlength, ← h.regs.quo_eq hdivided, fromSint32, BitVec.ofInt_toInt]
  exact ⟨hidx, hacc, hquo, by rw [h.regs.res_eq hformatted, hquo, meanOut]⟩

/-! ### The whole invocation -/

/-- START puts an invocation under way in which nothing is asked of a data register yet. -/
theorem State.Started.invocation {s u : State} {p : HostInput} {ps : List HostInput} {es : List Sample}
    (hu : s.Started u p.len) (hphase : s.phase = .idle ∨ s.phase = .done) (hinputs : s.inputs = p :: ps)
    (hrst : p.rst = false) (hstart : p.start = true) (hquiet : p.Quiet) (hread : s.vecRead 0 p.len.toNat = some es)
    (hclosed : s.cfg.overflow = .wrap ∨ p.len.toNat ≤ Config.safeLen) : u.Invocation es p.len s.handles := by
  have heq := hu.eq_latchLen hphase hinputs hrst hstart
  have hvector : u.vecRead 0 p.len.toNat = some es :=
    (State.vecRead_congr _ _ fun i _ _ => hu.sample_eq i).trans hread
  refine ⟨hu.underWay, ⟨hu.len_eq ▸ hvector, ?_, ?_, ?_, ?_⟩, hu.len_eq, ?_⟩
  all_goals subst heq
  · exact hclosed
  · exact ⟨nofun, nofun, nofun, nofun, nofun⟩
  · exact nofun
  · exact nofun
  · simp [State.nextInput, hinputs, hquiet.2]

/-- A run of an invocation to DONE ends with WR, issued in the first state of FMTD, before which nothing was written. -/
theorem State.Invocation.exists_before_write {u t : State} {es : List Sample} {n : Word} {b : Config.Handles}
    (h : u.Invocation es n b) {k : Nat} (hk : u.stepsToDone = k + 1) (hrun : runSteps (k + 1) u = .next t) :
    ∃ v, runSteps k u = .next v ∧ step v = .next t ∧ v.phase = .fmtd ∧ v.mem = u.mem ∧ v.Invocation es n b ∧
      runWrites k u = [] := by
  obtain ⟨v, hrun, hstep⟩ := exists_last_step hrun
  have hlt : k < u.stepsToDone := by omega
  have hran := h.underWay.ran hlt.le hrun
  have hsteps := hran.steps
  exact ⟨v, hrun, hstep, State.phase_of_stepsToDone_eq_one (by omega), hran.mem hlt,
    h.underWay.run_induction (P := fun v => v.Invocation es n b)
      (fun _ _ _ hbusy hphase hstep hs => hs.step_keeps hbusy hphase hstep) h hlt hrun, hran.writes hlt⟩

theorem wrData_of_fmtd {p : HostInput} {s : State} (hrst : p.rst = false) (hphase : s.phase = .fmtd) :
    wrData p s = some s.res :=
  if_pos (wrEn_iff.mpr ⟨hrst, hphase⟩)

@[simp] theorem State.finish_out (s : State) : s.finish.out = some s.res :=
  Memory.read16_write16 _ _ _ _

/-- Settles O53: the run reaches FMTD with the registers of the contract and nothing written, and WR then writes RES to
the slot. -/
theorem invocationComputesMean : Obligations.InvocationComputesMean := by
  unfold Obligations.InvocationComputesMean
  intro s p ps es hphase hinputs hrst hstart hquiet hsteady hlen hread hclosed
  obtain ⟨u, hu⟩ := State.exists_started hphase hinputs hrst hstart hquiet hsteady
  obtain ⟨t, hrun⟩ := hu.exists_run hlen hread
  have hmean : meanSteps s.cfg p.len.toNat = sumSteps s.cfg p.len.toNat + 3 + 1 := rfl
  obtain ⟨v, hrunv, hstep, hfmtd, hmem, hinvocation, hwrites⟩ :=
    (hu.invocation hphase hinputs hrst hstart hquiet hread hclosed).exists_before_write (hu.steps.trans hmean) hrun
  obtain ⟨hunder, hcomputing, hvlen, hhandles⟩ := hinvocation
  obtain ⟨hidx, hacc, hquo, hres⟩ := hcomputing.registers hfmtd
  obtain ⟨hvrst, hvquiet⟩ := State.nextInput_steady hunder.steady
  obtain rfl : v.afterInput.finish = t := by simpa using (step_write hvrst hfmtd).symm.trans hstep
  refine ⟨?_, v.afterInput.finish, ?_, rfl, rfl, hacc, hvlen, hidx.trans hvlen, hquo, hres, ?_, fun a h0 h1 => ?_⟩
  · have hlast : runWrites 1 v = [v.res] := by
      simp [runWrites, hstep, wrData_of_fmtd (s := v.afterInput) hvrst hfmtd]
    have hwritten : runWrites (meanSteps s.cfg p.len.toNat) u = [meanOut es] := by
      rw [hmean, runWrites_add 1 hrunv, hwrites, hlast, hres, List.nil_append]
    simp [runWrites, hu.step_eq, hu.no_write, hwritten]
  · simpa only [runSteps, hu.step_eq] using hrun
  · rw [State.finish_out, State.afterInput_res, hres]
  · rw [State.afterInput_of_quiet hvquiet, State.finish_mem, ← hu.mem_eq, ← hmem]
    exact Memory.read_write16_other _ _ _ (hhandles ▸ h0) (hhandles ▸ h1)

end Sys2Proof.Machine
end

section
/-! PROOFS of the accumulate family (spec/41_accumulate.md), the adder: what adding samples does to the state where
OVERFLOW_POLICY leaves ACC as R163 has it, and that order and grouping do not matter (R164). -/

namespace Sys2Proof.Machine

theorem State.addSamples_of_not_open {s : State} {es : List Sample} (h : s.overflowOpen es = false) :
    s.addSamples es = { s with acc := s.acc + laneSum es, idx := s.idx + BitVec.ofNat 32 es.length } := by
  rw [State.addSamples, State.nextAcc_of_not_open h, State.nextFresh_of_not_open h]

theorem State.addSamples_of_wrap {s : State} (h : s.cfg.overflow = .wrap) (es : List Sample) :
    s.addSamples es = { s with acc := s.acc + laneSum es, idx := s.idx + BitVec.ofNat 32 es.length } :=
  State.addSamples_of_not_open (State.overflowOpen_of_wrap h es)

theorem State.addSamples_append {s : State} (h : s.cfg.overflow = .wrap) (es es' : List Sample) :
    (s.addSamples es).addSamples es' = s.addSamples (es ++ es') := by
  rw [State.addSamples_of_wrap h (es ++ es'), State.addSamples_of_wrap (s := s.addSamples es) h,
    State.addSamples_of_wrap h es, laneSum_append, List.length_append, BitVec.ofNat_add, BitVec.add_assoc,
    BitVec.add_assoc]

theorem laneSum_perm {es es' : List Sample} (h : es.Perm es') : laneSum es = laneSum es' := by
  rw [laneSum_eq_sum, laneSum_eq_sum]
  exact (h.map _).sum_eq

theorem State.addSamples_perm {s : State} (hwrap : s.cfg.overflow = .wrap) {es es' : List Sample}
    (h : es.Perm es') : s.addSamples es = s.addSamples es' := by
  rw [State.addSamples_of_wrap hwrap, State.addSamples_of_wrap hwrap, laneSum_perm h, h.length_eq]

theorem laneSum_toNat (es : List Sample) : ((laneSum es).toNat : Int) = exactSum es % 4294967296 := by
  simpa using add_laneSum_toNat (a := 0#32) (k := 0) rfl es

/-- Settles O17: lane sums add over appended groups and are sums in a commutative ring, where the exact sum is known
modulo 2^32. -/
theorem orderAndGroupingDoNotMatter : Obligations.OrderAndGroupingDoNotMatter := by
  unfold Obligations.OrderAndGroupingDoNotMatter
  exact ⟨fun _ es es' hwrap => State.addSamples_append hwrap es es', fun _ _ _ hwrap h => State.addSamples_perm hwrap h,
    fun es => exactSum_eq_sum es ▸ laneSum_toNat es⟩

end Sys2Proof.Machine
end

section
/-! PROOFS of the accumulate family, the words (R120 to R124): the issue condition of each accumulate word, the one
addition the four make under it, and each word's form of that addition. -/

namespace Sys2Proof.Machine

/-! ### The issue conditions (R108) -/

theorem State.canAcc1_iff {s : State} : s.canAcc1 = true ↔
    s.phase = .sum ∧ 1 ≤ s.rem ∧ (s.cfg.strat = .scalar ∨ s.cfg.strat = .unroll ∧ s.rem < s.cfg.group.size) := by
  simp [State.canAcc1, and_assoc]

theorem State.canAcc4_iff {s : State} : s.canAcc4 = true ↔
    s.phase = .sum ∧ 4 ≤ s.rem ∧ s.cfg.strat = .unroll ∧ s.cfg.group = .four := by
  simp [State.canAcc4, and_assoc]

theorem State.canAcc8_iff {s : State} : s.canAcc8 = true ↔
    s.phase = .sum ∧ 8 ≤ s.rem ∧ s.cfg.strat = .unroll ∧ s.cfg.group = .eight := by
  simp [State.canAcc8, and_assoc]

theorem State.canVred_iff {s : State} : s.canVred = true ↔
    s.phase = .sum ∧ 1 ≤ s.rem ∧ s.cfg.strat = .vector := by
  simp [State.canVred, and_assoc]

/-! ### The addition -/

/-- U3: ACC is left open neither in a build that wraps nor where the exact sum has a pattern. -/
theorem State.overflowOpen_of_closed {s : State} {es : List Sample}
    (h : s.cfg.overflow = .wrap ∨ fits32 (s.acc.toInt + (es.map BitVec.toInt).sum) = true) :
    s.overflowOpen es = false := by
  rcases h with hwrap | hfits
  · exact State.overflowOpen_of_wrap hwrap es
  · exact State.overflowOpen_of_fits (exactSum_eq_sum es ▸ hfits)

/-- R121 to R124: an accumulate word under its condition, with its read answered and ACC not left open, adds the
sign-extended samples to ACC and their number to IDX, and changes nothing else. -/
theorem exec_accWord_adds {i : Instr} (hi : i = .acc1 ∨ i = .acc4 ∨ i = .acc8 ∨ i = .vred) {s : State}
    {es : List Sample} (hok : issueOk i s = true) (hread : s.vecRead s.idx.toNat (readCount s i) = some es)
    (hclosed : s.cfg.overflow = .wrap ∨ fits32 (s.acc.toInt + (es.map BitVec.toInt).sum) = true) :
    exec i s = .next
      { s with
        acc := s.acc + (es.map (BitVec.signExtend 32)).sum
        idx := s.idx + BitVec.ofNat 32 (readCount s i) } := by
  obtain ⟨-, -, hlanes⟩ := accWord_bounds hi hok
  rw [exec_accWord hi, hok, issueWhen_true, accumulate_of_vecRead hread hlanes,
    State.addSamples_of_not_open (State.overflowOpen_of_closed hclosed), laneSum_eq_sum,
    State.length_of_vecRead hread]

/-! ### The five words -/

/-- Settles O9: INIT is CLR's issue condition. -/
theorem clrClearsAccumulator : Obligations.ClrClearsAccumulator := by
  unfold Obligations.ClrClearsAccumulator
  refine ⟨rfl, fun s => ⟨fun hphase => ?_, fun hphase => ?_⟩⟩
  · rw [exec, execClr, State.canClr_iff.mpr hphase, issueWhen_true, State.clear]
  · exact exec_of_not_issueOk nofun (Bool.eq_false_iff.mpr (mt State.canClr_iff.mp hphase))

/-- Settles O10: the addition of a group of one. -/
theorem acc1AddsOneSample : Obligations.Acc1AddsOneSample := by
  unfold Obligations.Acc1AddsOneSample
  refine ⟨rfl, fun s e hphase hrem hstrat hread hclosed => ?_⟩
  have hadd := exec_accWord_adds (i := .acc1) (by simp) (State.canAcc1_iff.mpr ⟨hphase, hrem, hstrat⟩) hread
    (by simpa [fits32_iff] using hclosed)
  simpa [readCount] using hadd

/-- Settles O11: the addition of a group of four, regrouped. -/
theorem acc4AddsFourLanes : Obligations.Acc4AddsFourLanes := by
  unfold Obligations.Acc4AddsFourLanes
  refine ⟨rfl, fun s e0 e1 e2 e3 hphase hrem hstrat hgroup hread hclosed => ⟨?_, ?_⟩⟩
  · have hadd := exec_accWord_adds (i := .acc4) (by simp) (State.canAcc4_iff.mpr ⟨hphase, hrem, hstrat, hgroup⟩) hread
      (by simpa [add_assoc] using hclosed)
    simpa [readCount, BitVec.add_assoc] using hadd
  · simp only [BitVec.add_assoc]

/-- Settles O12: the addition of a group of eight, regrouped. -/
theorem acc8AddsEightLanes : Obligations.Acc8AddsEightLanes := by
  unfold Obligations.Acc8AddsEightLanes
  refine ⟨rfl, fun s e0 e1 e2 e3 e4 e5 e6 e7 hphase hrem hstrat hgroup hread hclosed => ⟨?_, ?_, ?_⟩⟩
  · have hadd := exec_accWord_adds (i := .acc8) (by simp) (State.canAcc8_iff.mpr ⟨hphase, hrem, hstrat, hgroup⟩) hread
      (by simpa [add_assoc] using hclosed)
    simpa [readCount, BitVec.add_assoc] using hadd
  · simp only [BitVec.add_assoc]
  · simp only [BitVec.add_assoc]

/-- Settles O13: the addition of a group of vl, which is at least 1 because REM and VLMAX are. -/
theorem vredAddsVlSamples : Obligations.VredAddsVlSamples := by
  unfold Obligations.VredAddsVlSamples
  refine ⟨rfl, fun s es hphase hrem hstrat hread hclosed => ?_⟩
  have hlength : es.length = min s.rem s.cfg.vlmax.val := State.length_of_vecRead hread
  refine ⟨hlength ▸ le_min hrem s.cfg.vlmax.2, hlength ▸ min_le_right _ _, ?_⟩
  exact exec_accWord_adds (i := .vred) (by simp) (State.canVred_iff.mpr ⟨hphase, hrem, hstrat⟩) hread hclosed

end Sys2Proof.Machine
end

section
/-! PROOFS of the finishing family (spec/42_divide_format.md), the shifter (R145): the truncated quotient as a biased
floor quotient, the two shifts as floor quotients, and when the plain one is the truncated quotient. -/

namespace Sys2Proof.Machine

/-- R145: truncation toward zero is the floor of the dividend biased by one less than the divisor where it is
negative. -/
theorem tdiv_eq_biased_ediv (a : Int) {n : Nat} (h : 1 ≤ n) :
    tdiv a n = (a + if a < 0 then (n : Int) - 1 else 0) / n := by
  rw [tdiv_of_pos a h]
  by_cases hneg : a < 0
  · have hpos : (0 : Int) < n := by omega
    have hlow := Int.emod_nonneg (-a) hpos.ne'
    have hhigh := Int.emod_lt_of_pos (-a) hpos
    have hsplit : a + ((n : Int) - 1) = (n - 1 - -a % n) + n * -(-a / n) := by
      have := Int.mul_ediv_add_emod (-a) n
      rw [Int.mul_neg]
      omega
    have hrest : ((n : Int) - 1 - -a % n) / n = 0 := Int.ediv_eq_zero_of_lt (by omega) (by omega)
    rw [if_neg (by omega), if_pos hneg, hsplit, Int.add_mul_ediv_left _ _ hpos.ne', hrest, zero_add]
  · rw [if_pos (by omega), if_neg hneg, add_zero]

/-- The floor quotient is not the truncated one exactly where the dividend is negative with a remainder. -/
theorem ediv_ne_tdiv_iff (a : Int) {n : Nat} (h : 1 ≤ n) : a / n ≠ tdiv a n ↔ a < 0 ∧ ¬ (n : Int) ∣ a := by
  have hsign : Int.sign n = 1 := Int.sign_eq_one_of_pos (by omega)
  rw [tdiv_eq_int_tdiv a h, Int.tdiv_eq_ediv, hsign]
  split
  case isTrue h =>
    rw [add_zero]
    exact iff_of_false (fun hne => hne rfl) fun ⟨hneg, hdvd⟩ => h.elim (by omega) hdvd
  case isFalse h =>
    rw [not_or] at h
    exact iff_of_true (by omega) ⟨by omega, h.2⟩

theorem sshiftRight_toInt (a : Word) (k : Nat) : (a.sshiftRight k).toInt = a.toInt / (2 ^ k : Nat) := by
  rw [BitVec.toInt_sshiftRight, Int.shiftRight_eq_div_pow]

/-- R145: the biased addition does not overflow. -/
theorem add_shiftBias_toInt (a : Word) {k : Nat} (hk : k ≤ 31) :
    (a + shiftBias a k).toInt = a.toInt + if a.toInt < 0 then ((2 ^ k : Nat) : Int) - 1 else 0 := by
  have hpow : 2 ^ k ≤ 2 ^ 31 := Nat.pow_le_pow_right (by decide) hk
  have hpos : 1 ≤ 2 ^ k := Nat.one_le_two_pow
  obtain ⟨hlow, hhigh⟩ := word_toInt_range a
  rw [shiftBias, BitVec.msb_eq_toInt]
  by_cases hneg : a.toInt < 0
  · simp only [hneg, decide_true, if_true]
    generalize 2 ^ k = d at *
    rw [BitVec.toInt_add, BitVec.toInt_ofNat', Int.add_bmod_bmod, Int.bmod_eq_of_le] <;> omega
  · simp [hneg]

/-- R145: the biased shift is the divider's quotient. -/
theorem shiftQuotient_toInt (a : Word) {k : Nat} (hk : k ≤ 31) :
    (shiftQuotient a k).toInt = tdiv a.toInt (2 ^ k) := by
  rw [shiftQuotient, sshiftRight_toInt, add_shiftBias_toInt a hk, tdiv_eq_biased_ediv _ Nat.one_le_two_pow]

/-- Settles O38: both shifts are floor quotients, the one of the biased dividend, the other of ACC itself. -/
theorem biasedShiftIsTheQuotient : Obligations.BiasedShiftIsTheQuotient := by
  unfold Obligations.BiasedShiftIsTheQuotient
  intro a k hk
  refine ⟨shiftQuotient_toInt a hk, ?_⟩
  rw [sshiftRight_toInt, ediv_ne_tdiv_iff _ Nat.one_le_two_pow, Nat.cast_pow, Nat.cast_ofNat]

end Sys2Proof.Machine
end

section
/-! PROOFS of the finishing family, the words DIV, FMT, WR and NOP (R140 to R143): the narrowing of FMT, and each
word under its issue condition and outside it. -/

namespace Sys2Proof.Machine

theorem narrow_eq_ofNat (q : Word) : narrow q = BitVec.ofNat 16 q.toNat := by
  rw [narrow, BitVec.extractLsb', Nat.shiftRight_zero]

theorem narrow_toInt (q : Word) : (narrow q).toInt = q.toInt.bmod 65536 := by
  rw [narrow_eq_ofNat, BitVec.toInt_ofNat', BitVec.toInt_eq_toNat_bmod q, Int.bmod_bmod_of_dvd (by decide)]

/-- R169: narrowing keeps the value that fits 16 bits. -/
theorem narrow_toInt_of_fits {q : Word} (hlow : -32768 ≤ q.toInt) (hhigh : q.toInt ≤ 32767) :
    (narrow q).toInt = q.toInt := by
  rw [narrow_toInt, Int.bmod_eq_of_le (by omega) (by omega)]

/-- Settles O19: LEN is at least 1 where it is not 0, and there QUO holds the quotient exactly. -/
theorem divTruncatesTowardZero : Obligations.DivTruncatesTowardZero := by
  unfold Obligations.DivTruncatesTowardZero
  refine ⟨rfl, fun s => ⟨fun hphase hidx hzero => ?_, fun hphase hidx hlen => ?_, fun hcan => ?_⟩⟩
  · rw [exec, execDiv, State.canDiv_iff.mpr ⟨hphase, hidx⟩, issueWhen_true, if_pos hzero]
  · have hpos : 1 ≤ s.len.toNat := Nat.one_le_iff_ne_zero.mpr (BitVec.toNat_ne_iff_ne.mpr hlen)
    refine ⟨quotient s.acc s.len, quotient_toInt s.acc hpos, ?_⟩
    rw [exec, execDiv, State.canDiv_iff.mpr ⟨hphase, hidx⟩, issueWhen_true, if_neg hlen, State.latchQuotient]
  · exact exec_of_not_issueOk nofun (Bool.eq_false_iff.mpr (mt State.canDiv_iff.mp hcan))

/-- Settles O20: the low half is the narrowing of QUO. -/
theorem fmtKeepsLowHalf : Obligations.FmtKeepsLowHalf := by
  unfold Obligations.FmtKeepsLowHalf
  refine ⟨rfl, fun s => ⟨fun hphase => ?_, fun hphase => ?_⟩⟩
  · rw [← narrow_eq_ofNat]
    refine ⟨?_, narrow_toInt_of_fits⟩
    rw [exec, execFmt, State.canFmt_iff.mpr hphase, issueWhen_true, State.latchResult]
  · exact exec_of_not_issueOk nofun (Bool.eq_false_iff.mpr (mt State.canFmt_iff.mp hphase))

/-- Settles O21: the state answered is `State.finish`, whose memory differs in the slot only. -/
theorem wrWritesResult : Obligations.WrWritesResult := by
  unfold Obligations.WrWritesResult
  refine ⟨rfl, fun s => ⟨fun hphase => ⟨s.finish, ?_, rfl, s.finish_out, rfl, rfl, fun a h0 h1 => ?_⟩,
    fun hphase => ?_⟩⟩
  · rw [exec, execWr, State.canWr_iff.mpr hphase, issueWhen_true]
  · rw [State.finish_mem, Memory.read_write16_other _ _ _ h0 h1]
  · exact exec_of_not_issueOk nofun (Bool.eq_false_iff.mpr (mt State.canWr_iff.mp hphase))

/-- Settles O22: NOP answers the state it was given, in the two phases of its issue condition. -/
theorem nopChangesNothing : Obligations.NopChangesNothing := by
  unfold Obligations.NopChangesNothing
  refine ⟨rfl, fun s => ⟨fun hphase => ?_, fun hidle hdone => ?_⟩⟩
  · rw [exec, execNop, State.canNop_iff.mpr hphase, issueWhen_true]
  · exact exec_of_not_issueOk nofun (Bool.eq_false_iff.mpr (mt State.canNop_iff.mp (not_or.mpr ⟨hidle, hdone⟩)))

end Sys2Proof.Machine
end

section
/-! PROOFS of the arithmetic family (spec/43_arithmetic_laws.md), the adder: the signed reading of a wrapped sum (R163),
and the lengths up to which no sum wraps (R165, R166). -/

namespace Sys2Proof.Machine

/-- R163: the signed reading of a wrapped sum is the number with a 32-bit pattern a multiple of 2^32 away. -/
theorem fromSint32_toInt_of_wrap {k m : Int} (h : fits32 (k + 4294967296 * m) = true) :
    (fromSint32 k).toInt = k + 4294967296 * m := by
  have hsame : fromSint32 k = fromSint32 (k + 4294967296 * m) := by
    apply BitVec.eq_of_toNat_eq
    simp [fromSint32]
  rw [hsame, fromSint32_toInt h]

theorem exactSum_singleton (e : Sample) : exactSum [e] = e.toInt := by simp [exactSum]

theorem State.nextAcc_singleton_of_wrap {s : State} (h : s.cfg.overflow = .wrap) (e : Sample) :
    s.nextAcc [e] = fromSint32 (s.acc.toInt + e.toInt) := by
  rw [State.nextAcc_of_not_open (State.overflowOpen_of_wrap h _), add_laneSum, exactSum_singleton]

/-- Settles O16: ACC is the pattern of the sum, whose signed reading is one 2^32 away where the sum is out of range. -/
theorem accumulatorWrapsModulo : Obligations.AccumulatorWrapsModulo := by
  unfold Obligations.AccumulatorWrapsModulo
  intro s e hwrap
  have hacc := word_toInt_range s.acc
  have hsample := sample_toInt_range e
  simp only [State.addSamples_acc]
  refine ⟨?_, fun hfits => ?_, fun habove => ?_, fun hbelow => ?_⟩
  · rw [State.nextAcc_of_not_open (State.overflowOpen_of_wrap hwrap _), ← exactSum_singleton]
    exact add_laneSum_toNat (by omega) [e]
  · rw [State.nextAcc_singleton_of_wrap hwrap, fromSint32_toInt hfits]
  · rw [State.nextAcc_singleton_of_wrap hwrap,
      fromSint32_toInt_of_wrap (m := -1) ((fits32_iff _).mpr (by omega))]
    omega
  · rw [State.nextAcc_singleton_of_wrap hwrap,
      fromSint32_toInt_of_wrap (m := 1) ((fits32_iff _).mpr (by omega))]
    omega

/-- R166: up to SAFE_LEN samples the sum has a 32-bit pattern. -/
theorem fits32_exactSum_of_length_le {es : List Sample} (h : es.length ≤ 65536) : fits32 (exactSum es) = true := by
  have hbounds := exactSum_bounds es
  exact (fits32_iff _).mpr (by omega)

theorem exactSum_replicate (n : Nat) (v : Sample) : exactSum (List.replicate n v) = n * v.toInt := by
  simp [exactSum_eq_sum]

/-- Settles O34: above SAFE_LEN the vector of least samples has a sum below the range. -/
theorem safeLengthIsExact : Obligations.SafeLengthIsExact := by
  unfold Obligations.SafeLengthIsExact
  simp only [← exactSum_eq_sum]
  refine ⟨fun es hfits => ?_, fun es hlength => fits32_exactSum_of_length_le hlength, fun n hn => ?_⟩
  · rw [laneSum_eq_fromSint32, fromSint32_toInt hfits]
  · refine ⟨List.replicate n 0x8000#16, List.length_replicate, ?_⟩
    have hleast : (0x8000#16 : Sample).toInt = -32768 := by decide
    rw [exactSum_replicate, hleast, Bool.eq_false_iff, Ne, fits32_iff]
    omega

end Sys2Proof.Machine
end

section
/-! PROOFS of the arithmetic family, the division (R167, R168): the magnitude and the sign of the truncated quotient and
of its remainder, and what they determine. -/

namespace Sys2Proof.Machine

/-- R167: the remainder of the truncated division is zero or of the sign of the dividend. -/
theorem tmod_sign (a b : Int) :
    a.tmod b = 0 ∨ (0 < a.tmod b ∧ 0 < a) ∨ (a.tmod b < 0 ∧ a < 0) := by
  rcases lt_trichotomy a 0 with hneg | rfl | hpos
  · have hrest := Int.tmod_nonneg b (Int.neg_nonneg_of_nonpos hneg.le)
    rw [Int.neg_tmod] at hrest
    omega
  · exact .inl (Int.zero_tmod b)
  · have hrest := Int.tmod_nonneg b hpos.le
    omega

section PositiveDivisor

variable {n : Nat} (hn : 1 ≤ n)
include hn

theorem sub_mul_tdiv (a : Int) : a - n * tdiv a n = a.tmod n := by
  rw [tdiv_eq_int_tdiv a hn, Int.tmod_def]

theorem abs_tmod_lt (a : Int) : |a.tmod n| < n :=
  abs_lt.mpr ⟨Int.lt_tmod_of_pos a (by omega), Int.tmod_lt_of_pos a (by omega)⟩

/-- R167: the quotient's magnitude is the quotient of the magnitudes. -/
theorem natAbs_tdiv (a : Int) : (tdiv a n).natAbs = a.natAbs / n := by
  rw [tdiv_eq_int_tdiv a hn, Int.natAbs_tdiv, Int.natAbs_natCast]
  rfl

/-- R168(b). -/
theorem tdiv_neg (a : Int) : tdiv (-a) n = -tdiv a n := by
  rw [tdiv_eq_int_tdiv _ hn, tdiv_eq_int_tdiv _ hn, Int.neg_tdiv]

/-- R168(c). -/
theorem tdiv_eq_zero_iff (a : Int) : tdiv a n = 0 ↔ |a| < n := by
  rw [← Int.natAbs_eq_zero, natAbs_tdiv hn, Nat.div_eq_zero_iff_lt hn, Int.abs_eq_natAbs, Int.ofNat_lt]

/-- R168(d). -/
theorem tdiv_mul_self (v : Int) : tdiv (n * v) n = v := by
  rw [tdiv_eq_int_tdiv _ hn, Int.mul_tdiv_cancel_left _ (by omega)]

/-- R168(e). -/
theorem tdiv_mono {a b : Int} (h : a ≤ b) : tdiv a n ≤ tdiv b n := by
  rw [tdiv_eq_int_tdiv _ hn, tdiv_eq_int_tdiv _ hn]
  exact Int.tdiv_le_tdiv (by omega) h

/-- R168(f). -/
theorem mul_abs_tdiv_le (a : Int) : n * |tdiv a n| ≤ |a| := by
  rw [Int.abs_eq_natAbs, Int.abs_eq_natAbs, natAbs_tdiv hn]
  exact_mod_cast Nat.mul_div_le a.natAbs n

/-- R168(d), (e): a quotient lies between any integers between which the exact quotient lies. -/
theorem tdiv_mem_of_mul_bounds {a lo hi : Int} (hlo : n * lo ≤ a) (hhi : a ≤ n * hi) :
    lo ≤ tdiv a n ∧ tdiv a n ≤ hi :=
  ⟨tdiv_mul_self hn lo ▸ tdiv_mono hn hlo, tdiv_mul_self hn hi ▸ tdiv_mono hn hhi⟩

/-- R176: a quotient is zero or of the sign of its dividend. -/
theorem tdiv_eq_zero_or_pos_iff (a : Int) : tdiv a n = 0 ∨ (0 < tdiv a n ↔ 0 < a) := by
  have hzero : tdiv 0 n = 0 := (tdiv_eq_zero_iff hn 0).mpr (by rw [abs_zero]; omega)
  rcases le_or_gt a 0 with hnonpos | hpos
  · have hquot := tdiv_mono hn hnonpos
    omega
  · have hquot := tdiv_mono hn hpos.le
    omega

/-- R168(b) on patterns: the negation of a pattern other than that of -2^31 is exact. -/
theorem quotient_neg {a m : Word} (hm : m.toNat = n) (ha : a ≠ 0x80000000#32) : quotient (-a) m = -quotient a m := by
  have hneg : (-a).toInt = -a.toInt := BitVec.toInt_neg_of_ne_intMin ha
  rw [quotient, quotient, hneg, hm, tdiv_neg hn, fromSint32, fromSint32, BitVec.ofInt_neg]

end PositiveDivisor

/-- Settles O35: the remainder is the library's, which has the sign asked for; on either side of 0 the library's
uniqueness of quotient and remainder gives the converse. -/
theorem tdivIsTheTruncatedQuotient : Obligations.TdivIsTheTruncatedQuotient := by
  unfold Obligations.TdivIsTheTruncatedQuotient
  intro a q n hn
  constructor
  · rintro rfl
    have hrest := sub_mul_tdiv hn a
    exact ⟨a.tmod n, by omega, abs_tmod_lt hn a, tmod_sign a n⟩
  · rintro ⟨r, hsplit, hsmall, hsign⟩
    obtain ⟨hlow, hhigh⟩ := abs_lt.mp hsmall
    rw [tdiv_eq_int_tdiv a hn]
    rcases le_total 0 a with hpos | hneg
    · exact ((Int.tdiv_tmod_unique (r := r) hpos (by omega)).mpr ⟨by omega, by omega, by omega⟩).1.symm
    · exact ((Int.tdiv_tmod_unique' (r := r) hneg (by omega)).mpr ⟨by omega, by omega, by omega⟩).1.symm

/-- Settles O36: the first law compares magnitudes, the error in the last is the remainder, and the rest are the lemmas
above. -/
theorem tdivLaws : Obligations.TdivLaws := by
  unfold Obligations.TdivLaws
  intro n hn
  refine ⟨fun a => ?_, tdiv_neg hn, tdiv_eq_zero_iff hn, tdiv_mul_self hn, fun _ _ => tdiv_mono hn,
    fun a => ⟨?_, mul_abs_tdiv_le hn a⟩, fun a m hm => ⟨?_, quotient_neg hn hm⟩⟩
  · rw [Int.abs_eq_natAbs, Int.abs_eq_natAbs, natAbs_tdiv hn]
    exact_mod_cast Nat.div_le_self a.natAbs n
  · exact sub_mul_tdiv hn a ▸ abs_tmod_lt hn a
  · exact hm ▸ quotient_toInt a (hm ▸ hn)

end Sys2Proof.Machine
end

section
/-! PROOFS of the arithmetic family, the result (R169 to R177): the narrowing, that every quotient the block makes fits
16 bits, what the result of an invocation is as an integer, and that no strategy changes it. -/

namespace Sys2Proof.Machine

/-! ### The narrowing -/

/-- Settles O37: the narrowed value is the balanced remainder modulo 65536, and lies in the range of a sample. -/
theorem narrowingWraps : Obligations.NarrowingWraps := by
  unfold Obligations.NarrowingWraps
  intro q
  refine ⟨⟨fun hkeeps => hkeeps ▸ sample_toInt_range (narrow q), fun ⟨hlow, hhigh⟩ => narrow_toInt_of_fits hlow hhigh⟩,
    -q.toInt.bdiv 65536, ?_⟩
  rw [narrow_toInt, Int.bmod_eq_self_sub_mul_bdiv]
  omega

/-- R171: a 32-bit dividend gives a 16-bit quotient by any divisor above SAFE_LEN, and by a smaller one where the
dividend is within the headroom of so many samples. -/
theorem tdiv_fits_sample (a : Word) {n : Nat} (hn : 1 ≤ n)
    (hsafe : n ≤ Config.safeLen → -32768 * (n : Int) ≤ a.toInt ∧ a.toInt ≤ 32767 * (n : Int)) :
    -32768 ≤ tdiv a.toInt n ∧ tdiv a.toInt n ≤ 32767 := by
  rcases Nat.lt_or_ge Config.safeLen n with hlong | hshort
  · have hrange := word_toInt_range a
    have hquot : (tdiv a.toInt n).natAbs < 32768 := by
      rw [Config.safeLen] at hlong
      rw [natAbs_tdiv hn, Nat.div_lt_iff_lt_mul hn]
      omega
    omega
  · obtain ⟨hlow, hhigh⟩ := hsafe hshort
    exact tdiv_mem_of_mul_bounds hn (by omega) (by omega)

/-- Settles O47: IDX is LEN once DIV has run, so the headroom of ACC is that of the divisor. -/
theorem quotientFitsSample : Obligations.QuotientFitsSample := by
  unfold Obligations.QuotientFitsSample
  intro s hinv hdivided
  have hfits := tdiv_fits_sample s.acc (hinv.regs.len_pos hdivided)
    (hinv.regs.idx_eq_len hdivided ▸ hinv.bounded (Phase.cleared_of_divided hdivided))
  rw [← hinv.regs.quo_eq hdivided] at hfits
  exact ⟨hfits, fun hformatted => hinv.regs.res_eq hformatted ▸ narrow_toInt_of_fits hfits.1 hfits.2⟩

/-! ### The result of R100 as an integer -/

theorem meanAcc_toInt_of_fits {es : List Sample} (h : fits32 (exactSum es) = true) :
    (meanAcc es).toInt = exactSum es :=
  fromSint32_toInt h

/-- R171: no vector of at least one sample, overflowing or not, has a result that the narrowing changes. -/
theorem meanOut_toInt {es : List Sample} (h : 1 ≤ es.length) :
    (meanOut es).toInt = tdiv (meanAcc es).toInt es.length := by
  obtain ⟨hlow, hhigh⟩ := tdiv_fits_sample (meanAcc es) h fun hsafe => by
    rw [meanAcc_toInt_of_fits (fits32_exactSum_of_length_le hsafe)]
    exact exactSum_bounds es
  have hquo : (meanQuo es).toInt = tdiv (meanAcc es).toInt es.length :=
    fromSint32_toInt ((fits32_iff _).mpr (by omega))
  rw [meanOut, narrow_toInt_of_fits (hquo ▸ hlow) (hquo ▸ hhigh), hquo]

theorem meanOut_toInt_of_fits {es : List Sample} (h : 1 ≤ es.length) (hfits : fits32 (exactSum es) = true) :
    (meanOut es).toInt = tdiv (exactSum es) es.length := by
  rw [meanOut_toInt h, meanAcc_toInt_of_fits hfits]

/-- R173. -/
theorem meanOut_replicate {v : Sample} {n : Nat} (hn : 1 ≤ n) (hfits : fits32 (n * v.toInt) = true) :
    meanOut (List.replicate n v) = v := by
  have hlength : (List.replicate n v).length = n := List.length_replicate
  have hsum := exactSum_replicate n v
  apply BitVec.eq_of_toInt_eq
  rw [meanOut_toInt_of_fits (hlength.symm ▸ hn) (hsum.symm ▸ hfits), hsum, hlength, tdiv_mul_self hn]

/-- Settles O39: a single sample is a constant vector, and the sum of up to SAFE_LEN samples fits. -/
theorem constantVectorMean : Obligations.ConstantVectorMean := by
  unfold Obligations.ConstantVectorMean
  have hsafe (v : Sample) (n : Nat) (hn : n ≤ 65536) : fits32 (n * v.toInt) = true :=
    exactSum_replicate n v ▸ fits32_exactSum_of_length_le (List.length_replicate.trans_le hn)
  exact ⟨fun v => meanOut_replicate (n := 1) (by decide) (hsafe v 1 (by decide)),
    fun v n hn hfits => meanOut_replicate hn hfits, hsafe⟩

/-- Settles O40: the result is the quotient, and a sum of zero leaves ACC zero. -/
theorem zeroResultIff : Obligations.ZeroResultIff := by
  unfold Obligations.ZeroResultIff
  intro es hlength
  have hzero : meanOut es = 0#16 ↔ |(meanAcc es).toInt| < es.length := by
    rw [← tdiv_eq_zero_iff hlength, ← meanOut_toInt hlength, ← BitVec.toInt_inj, BitVec.toInt_zero]
  refine ⟨hzero, fun hsum => hzero.mpr ?_⟩
  rw [← exactSum_eq_sum] at hsum
  rw [meanAcc_toInt_of_fits (hsum ▸ rfl), hsum, abs_zero]
  omega

/-- The sum of samples lies between the sums of as many of any two bounds of them. -/
theorem exactSum_mem_of_bounds {es : List Sample} {lo hi : Int} (h : ∀ e ∈ es, lo ≤ e.toInt ∧ e.toInt ≤ hi) :
    es.length * lo ≤ exactSum es ∧ exactSum es ≤ es.length * hi := by
  have hlow := List.card_nsmul_le_sum (es.map BitVec.toInt) lo (by simpa using fun e he => (h e he).1)
  have hhigh := List.sum_le_card_nsmul (es.map BitVec.toInt) hi (by simpa using fun e he => (h e he).2)
  simpa [exactSum_eq_sum] using And.intro hlow hhigh

/-- Settles O41: the result is the truncated quotient of the sum, whose laws these are. -/
theorem resultBoundsAndError : Obligations.ResultBoundsAndError := by
  unfold Obligations.ResultBoundsAndError
  intro es hlength hfits
  rw [← exactSum_eq_sum] at hfits ⊢
  rw [meanOut_toInt_of_fits hlength hfits]
  refine ⟨fun lo hi hbounds => ?_, mul_abs_tdiv_le hlength _, tdiv_eq_zero_or_pos_iff hlength _, ?_, fun hdvd => ?_⟩
  · obtain ⟨hlow, hhigh⟩ := exactSum_mem_of_bounds hbounds
    exact tdiv_mem_of_mul_bounds hlength hlow hhigh
  · exact sub_mul_tdiv hlength _ ▸ abs_tmod_lt hlength _
  · rw [tdiv_eq_int_tdiv _ hlength, Int.mul_tdiv_cancel' hdvd]

/-! ### The strategies -/

/-- Settles O54: both instances end with the registers and the output of R100, which is about the samples alone. -/
theorem strategiesBitIdentical : Obligations.StrategiesBitIdentical := by
  unfold Obligations.StrategiesBitIdentical
  intro s s' p p' ps ps' es hphase hphase' hinputs hinputs' hrst hrst' hstart hstart' hquiet hquiet' hsteady hsteady'
    hlen hpos hread hread' hwrap hwrap'
  obtain ⟨-, t, hrun, hdone, -, hacc, -, hidx, hquo, hres, hout, -⟩ :=
    invocationComputesMean s p ps es hphase hinputs hrst hstart hquiet hsteady hpos hread (.inl hwrap)
  rw [hlen] at hpos hread' ⊢
  obtain ⟨-, t', hrun', hdone', -, hacc', -, hidx', hquo', hres', hout', -⟩ :=
    invocationComputesMean s' p' ps' es hphase' hinputs' hrst' hstart' hquiet' hsteady' hpos hread' (.inl hwrap')
  exact ⟨t, t', hlen ▸ hrun, hrun', hdone, hdone', hacc.trans hacc'.symm, hidx.trans (hlen.trans hidx'.symm),
    hquo.trans hquo'.symm, hres.trans hres'.symm, hout.trans hout'.symm⟩

end Sys2Proof.Machine
end

section
/-! PROOFS of the exceptions family (spec/60_exceptions.md R191 to R196): in which states a step faults, and which fault
it is. Only SUM has one: the accumulate step faults for its read alone, whatever it adds, and DIV for an empty vector
alone. -/

namespace Sys2Proof.Machine

theorem exists_step_of_rst {s : State} (hrst : s.nextInput.rst = true) : ∃ t, step s = .next t :=
  ⟨_, if_pos hrst⟩

/-- R68: outside SUM a step reads nothing, so there is nothing to answer. -/
theorem State.answered_of_phase_ne_sum {s : State} (h : s.phase ≠ .sum) : s.Answered := by
  have hcount : requestCount s.nextInput s.afterInput = 0 :=
    not_ne_iff.mp (mt phase_of_requestCount h)
  rw [State.Answered, hcount]
  rfl

theorem exists_step_of_phase_ne_sum {s : State} (hrst : s.nextInput.rst = false) (h : s.phase ≠ .sum) :
    ∃ t, step s = .next t :=
  (State.answered_of_phase_ne_sum h).exists_step hrst (fun hphase => absurd hphase h) fun ⟨hphase, _⟩ => h hphase

theorem ne_fault_of_exists_step {s : State} {f : Fault} (h : ∃ t, step s = .next t) : step s ≠ .fault f := by
  obtain ⟨t, ht⟩ := h
  rw [ht]
  nofun

/-- R103: in SUM with IDX above LEN the sequencer names no word (log 11), which is a refusal and no fault. -/
theorem step_past_len {s : State} (hrst : s.nextInput.rst = false) (hphase : s.phase = .sum)
    (hidx : s.len.toNat < s.idx.toNat) : step s = .refused .noNextWord := by
  have hne : s.idx ≠ s.len := ne_of_apply_ne BitVec.toNat hidx.ne'
  have hseq : sequencer s.afterInput = none := by simp [sequencer, hphase, hne, Nat.not_lt_of_gt hidx]
  have hbusy : s.afterInput.busy = true := by simp [State.busy, Phase.busy, hphase]
  have hissued : issued s.nextInput s.afterInput = none := (issued_of_busy hbusy _).trans hseq
  simp [step, stepWith, issuedWord, hrst, hissued]

/-- R68, R191: an accumulate step faults for want of an answer and for nothing else. -/
theorem accumulate_eq_fault_iff {n : Nat} {s : State} {f : Fault} :
    accumulate n s = .fault f ↔ f = .unansweredRead ∧ s.vecRead s.idx.toNat n = none := by
  unfold accumulate
  cases s.vecRead s.idx.toNat n with
  | none => simp [eq_comm]
  | some es => simp

theorem step_add_eq_fault_iff {s : State} {f : Fault} (hrst : s.nextInput.rst = false) (hphase : s.phase = .sum)
    (hidx : s.idx.toNat < s.len.toNat) : step s = .fault f ↔ f = .unansweredRead ∧ ¬ s.Answered := by
  have hcount : requestCount s.nextInput s.afterInput = sumCount s.cfg s.rem := requestCount_add hrst hphase hidx
  rw [step_add hrst hphase hidx, accumulate_eq_fault_iff, State.afterInput_idx, State.Answered, hcount,
    Option.not_isSome_iff_eq_none]

theorem step_divide_eq_fault_iff {s : State} {f : Fault} (hrst : s.nextInput.rst = false) (hphase : s.phase = .sum)
    (hidx : s.idx = s.len) : step s = .fault f ↔ f = .divideByZero ∧ s.len = 0#32 := by
  rw [step_divide hrst hphase hidx]
  split <;> simp [*, eq_comm]

/-- Settles O49: a reset and a step outside SUM are made; in SUM the step adds, divides or is refused as IDX is below,
at or above LEN. -/
theorem faultCauses : Obligations.FaultCauses := by
  unfold Obligations.FaultCauses
  intro s f
  cases hrst : s.nextInput.rst with
  | true => simp [ne_fault_of_exists_step (exists_step_of_rst hrst)]
  | false =>
    by_cases hphase : s.phase = .sum
    case neg => simp [ne_fault_of_exists_step (exists_step_of_phase_ne_sum hrst hphase), hphase]
    case pos =>
      obtain hlt | heq | hgt := Nat.lt_trichotomy s.idx.toNat s.len.toNat
      · have hne : s.idx ≠ s.len := ne_of_apply_ne BitVec.toNat hlt.ne
        simp [step_add_eq_fault_iff hrst hphase hlt, hphase, hlt, hne]
      · have hidx : s.idx = s.len := BitVec.eq_of_toNat_eq heq
        simp [step_divide_eq_fault_iff hrst hphase hidx, hphase, hidx]
      · have hne : s.idx ≠ s.len := ne_of_apply_ne BitVec.toNat hgt.ne'
        simp [step_past_len hrst hphase hgt, hne, Nat.not_lt_of_gt hgt]

end Sys2Proof.Machine
end

section
/-! PROOFS of the reset family (spec/70_reset_and_hazards.md R220, R221): a step with `rst` = 1 is the reset event
whatever `start` says. It executes no word, so the trace port and both access ports are idle in it. -/

namespace Sys2Proof.Machine

theorem step_of_rst {s : State} (hrst : s.nextInput.rst = true) : step s = .next s.afterInput.resetEvent :=
  if_pos hrst

/-! ### The ports while `rst` = 1 -/

section Ports

variable {p : HostInput} (hrst : p.rst = true) (s : State)

include hrst

theorem uopInstr_of_rst : uopInstr p s = none := if_pos hrst

theorem uopPort_of_rst : uopPort p s = none := by rw [uopPort, uopInstr_of_rst hrst]

theorem readIndices_of_rst : readIndices p s = [] := by
  rw [readIndices, requestCount, uopInstr_of_rst hrst, List.range'_zero]

theorem wrData_of_rst : wrData p s = none := by simp [wrData, wrEn, uopInstr_of_rst hrst]

end Ports

/-- Settles O43: with `rst` = 1 every port is idle, and the step is the reset event on the state the host's input
leaves. -/
theorem resetWinsOverEverything : Obligations.ResetWinsOverEverything := by
  unfold Obligations.ResetWinsOverEverything
  intro s hrst
  refine ⟨?_, ?_, ?_, s.afterInput.resetEvent, step_of_rst hrst, rfl, rfl, rfl, rfl, rfl, rfl⟩
  · simp [runReads, step_of_rst hrst, readIndices_of_rst hrst]
  · simp [runWrites, step_of_rst hrst, wrData_of_rst hrst]
  · simp [runUops, step_of_rst hrst, uopPort_of_rst hrst]

end Sys2Proof.Machine
end

section
/-! PROOFS of the open overflow (spec/93_implementation_defined.md U3): a sum that leaves the 32-bit range in an
unconstrained build leaves ACC open, the adder then draws one free value for it, and an accumulate word is that
adder. -/

namespace Sys2Proof.Machine

theorem not_fits32_iff {x : Int} : fits32 x = false ↔ x < -2147483648 ∨ 2147483647 < x := by
  rw [← Bool.not_eq_true, fits32_iff, not_and_or, not_le, not_le]

/-- U3: ACC is left open exactly where an unconstrained build adds a sum that leaves the range. -/
theorem State.overflowOpen_iff {s : State} {es : List Sample} : s.overflowOpen es = true ↔
    s.cfg.overflow = .unconstrained ∧
      (s.acc.toInt + exactSum es < -2147483648 ∨ 2147483647 < s.acc.toInt + exactSum es) := by
  simp [State.overflowOpen, State.leavesRange, not_fits32_iff]

/-- U3, log 18: the adder where ACC is left open, beside `State.addSamples_of_not_open`. -/
theorem State.addSamples_of_open {s : State} {es : List Sample} (h : s.overflowOpen es = true) :
    s.addSamples es =
      { s with
        acc := Config.freeWord s.fresh
        idx := s.idx + BitVec.ofNat 32 es.length
        fresh := s.fresh + 1 } := by
  rw [State.addSamples, State.nextAcc, State.nextFresh, if_pos h, if_pos h]

/-- Settles O14: the accumulate words are one guarded step, which adds the elements read with ACC left open. -/
theorem openOverflowIsFree : Obligations.OpenOverflowIsFree := by
  unfold Obligations.OpenOverflowIsFree
  intro s i es hok hi hread hunconstrained hrange
  obtain ⟨-, -, hlanes⟩ := accWord_bounds hi hok
  have hopen : s.overflowOpen es = true :=
    State.overflowOpen_iff.mpr ⟨hunconstrained, by rwa [exactSum_eq_sum]⟩
  rw [exec_accWord hi, hok, issueWhen_true, accumulate_of_vecRead hread hlanes, State.addSamples_of_open hopen,
    State.length_of_vecRead hread]

end Sys2Proof.Machine
end
